-- ==== Sys2Proof/Word.lean ====
section
/-! DEFINITION. The word and field types of the UE2 drum core (00_scope.md R6, R12). -/

namespace Sys2Proof

/-- The 24-bit storage and arithmetic unit (00_scope.md R6, R12; 40_word_codec.md R110). -/
abbrev Word := BitVec 24

/-- A 5-bit instruction field: a slot, a line or a device number (00_scope.md R12). -/
abbrev Field5 := BitVec 5

/-- The 4-bit operation field (00_scope.md R12). -/
abbrev Field4 := BitVec 4

end Sys2Proof
end

