-- ==== Sys2Proof/Config.lean ====
section
/-! DEFINITION. The parameters the spec leaves to the implementation and a model takes as arguments
(00_scope.md R7). Their default values stand in Machine/Params.lean. -/

namespace Sys2Proof

/-- `RESERVED_POLICY` (44_io.md R188, D8): what opcodes 10 to 15 and `OUT` to devices 2 to 31 do. -/
inductive ReservedPolicy where
  /-- They complete like `IN`, with no effect. -/
  | noop
  /-- They raise `ReservedEncoding(IR)`. -/
  | fault
  deriving DecidableEq, Repr

/-- One choice of the parameters of 00_scope.md R7 that the step function depends on, supplied once when
the machine is created (70_reset_and_hazards.md R237). DESIGN CHOICE (log 1): the state carries it. -/
structure Config where
  /-- `N_LINES`, the number of drum lines (D1). -/
  nLines : Nat
  /-- `N_SLOTS`, the words per line and the cursor's period (D1). -/
  nSlots : Nat
  /-- `RESERVED_POLICY` (D8, D9). -/
  reserved : ReservedPolicy
  /-- `ROT_BITS`, how many low bits of the ROT operand are scanned (D6). -/
  rotBits : Nat
  deriving DecidableEq, Repr

/-- The constraints of 00_scope.md R7: both geometry numbers lie in `1 .. 32`; at most the 24 bits of a
word can be scanned. -/
abbrev Config.Valid (c : Config) : Prop :=
  1 ≤ c.nLines ∧ c.nLines ≤ 32 ∧ 1 ≤ c.nSlots ∧ c.nSlots ≤ 32 ∧ c.rotBits ≤ 24

end Sys2Proof
end

