-- ==== Sys2Proof/Syntax.lean ====
section
/-! DEFINITION. The instructions: one constructor per row of spec/opcode_table.json. Every constructor keeps
every bit of its word that the row does not fix, ignored bits included, so that decoding loses nothing
(30_encoding.md R85). Field order is the word's, most significant first (30_encoding.md R82). -/

namespace Sys2Proof

/-- The instruction set (30_encoding.md R86, R88). `oslot`, `oline` locate the operand, `dev` names a device,
`nslot`, `nline` locate the successor; an I/O-class `oline` is ignored (R89). -/
inductive Instr where
  /-- `LOAD OL:OS -> NL:NS` (42_alu_data.md R151). -/
  | load (oslot oline nslot nline : Field5)
  /-- `ADD OL:OS -> NL:NS` (42_alu_data.md R152). -/
  | add (oslot oline nslot nline : Field5)
  /-- `SUB OL:OS -> NL:NS` (42_alu_data.md R153). -/
  | sub (oslot oline nslot nline : Field5)
  /-- `AND OL:OS -> NL:NS` (42_alu_data.md R154). -/
  | and (oslot oline nslot nline : Field5)
  /-- `XOR OL:OS -> NL:NS` (42_alu_data.md R155). -/
  | xor (oslot oline nslot nline : Field5)
  /-- `ROT OL:OS -> NL:NS` (42_alu_data.md R156). -/
  | rot (oslot oline nslot nline : Field5)
  /-- `BEQ OL:OS -> NL:NS` (43_control.md R171). -/
  | beq (oslot oline nslot nline : Field5)
  /-- `STORE OL:OS -> NL:NS` (42_alu_data.md R157). -/
  | store (oslot oline nslot nline : Field5)
  /-- `IN dev -> NL:NS`, any device (44_io.md R182). -/
  | inp (dev oline nslot nline : Field5)
  /-- `OUT HALT -> NL:NS`, device 0 (44_io.md R183). -/
  | outHalt (oline nslot nline : Field5)
  /-- `OUT TRANSMIT -> NL:NS`, device 1 (44_io.md R184). -/
  | outTransmit (oline nslot nline : Field5)
  /-- `OUT BRANCH -> NL:NS`, device 2, superseded (44_io.md R186). -/
  | outBranch (oline nslot nline : Field5)
  /-- `OUT` to the unassigned device 3 (44_io.md R185). -/
  | outDev3 (oline nslot nline : Field5)
  /-- `OUT` to an unassigned device, 4 to 7 (44_io.md R185). -/
  | outDev4to7 (dev oline nslot nline : Field5)
  /-- `OUT` to an unassigned device, 8 to 15 (44_io.md R185). -/
  | outDev8to15 (dev oline nslot nline : Field5)
  /-- `OUT` to an unassigned device, 16 to 31 (44_io.md R185). -/
  | outDev16to31 (dev oline nslot nline : Field5)
  /-- Reserved opcode 10 (44_io.md R187); `hi` is bits 19:15, `lo` bits 14:10, both ignored. -/
  | reserved10 (hi lo nslot nline : Field5)
  /-- Reserved opcode 11 (44_io.md R187). -/
  | reserved11 (hi lo nslot nline : Field5)
  /-- Reserved opcode 12 (44_io.md R187). -/
  | reserved12 (hi lo nslot nline : Field5)
  /-- Reserved opcode 13 (44_io.md R187). -/
  | reserved13 (hi lo nslot nline : Field5)
  /-- Reserved opcode 14 (44_io.md R187). -/
  | reserved14 (hi lo nslot nline : Field5)
  /-- Reserved opcode 15 (44_io.md R187). -/
  | reserved15 (hi lo nslot nline : Field5)
  deriving DecidableEq, Repr

end Sys2Proof
end

