-- ==== Sys2Proof/WellFormed.lean ====
section
/-! DEFINITION. When a term of `Instr` stands for a word: the device number of an `OUT` row lies in the row's
range (30_encoding.md R88; the rows of opcode_table.json). Every other field admits all its values
(30_encoding.md R94). -/

namespace Sys2Proof

/-- The instruction is one of its row: a device field lies in the range the row covers. -/
def Instr.WellFormed : Instr → Bool
  | .load _ _ _ _ | .add _ _ _ _ | .sub _ _ _ _ | .and _ _ _ _ | .xor _ _ _ _ | .rot _ _ _ _ => true
  | .beq _ _ _ _ | .store _ _ _ _ | .inp _ _ _ _ => true
  | .outHalt _ _ _ | .outTransmit _ _ _ | .outBranch _ _ _ | .outDev3 _ _ _ => true
  | .outDev4to7 dev _ _ _ => decide (4 ≤ dev.toNat ∧ dev.toNat ≤ 7)
  | .outDev8to15 dev _ _ _ => decide (8 ≤ dev.toNat ∧ dev.toNat ≤ 15)
  | .outDev16to31 dev _ _ _ => decide (16 ≤ dev.toNat)
  | .reserved10 _ _ _ _ | .reserved11 _ _ _ _ | .reserved12 _ _ _ _ => true
  | .reserved13 _ _ _ _ | .reserved14 _ _ _ _ | .reserved15 _ _ _ _ => true

end Sys2Proof
end

