-- ==== Sys2Proof/Decode.lean ====
section
/-! DEFINITION. The Instruction codec (30_encoding.md): bit slices, the field layout, the opcode and device
codes, decoding, encoding, and the opcode table. Decoding is total and refuses no word (R83, R94). The layout
and the codes are configuration (R82, R86, R88; decisions D2, D3, D4; log 16) and stand here once. -/

namespace Sys2Proof

/-- `v[hi:lo]`, the unsigned integer made of bits `hi` down to `lo` (00_scope.md R11). -/
def bits (v : Word) (hi lo : Nat) : Nat := (v.toNat >>> lo) % 2 ^ (hi - lo + 1)

/-! Field positions (30_encoding.md R82, D2). -/

/-- Lowest bit of `op`, bits 23:20. -/
def Layout.opLo : Nat := 20
/-- Lowest bit of `oslot`, also called `dev`, bits 19:15. -/
def Layout.oslotLo : Nat := 15
/-- Lowest bit of `oline`, bits 14:10. -/
def Layout.olineLo : Nat := 10
/-- Lowest bit of `nslot`, bits 9:5. -/
def Layout.nslotLo : Nat := 5
/-- Lowest bit of `nline`, bits 4:0. -/
def Layout.nlineLo : Nat := 0

/-! Opcode codes (30_encoding.md R86, D3); 11 to 15 are reserved like 10 (R91). -/

/-- `OPC_LOAD`. -/
def Code.opLoad : Field4 := 0
/-- `OPC_ADD`. -/
def Code.opAdd : Field4 := 1
/-- `OPC_SUB`. -/
def Code.opSub : Field4 := 2
/-- `OPC_AND`. -/
def Code.opAnd : Field4 := 3
/-- `OPC_XOR`. -/
def Code.opXor : Field4 := 4
/-- `OPC_ROT`. -/
def Code.opRot : Field4 := 5
/-- `OPC_BEQ`. -/
def Code.opBeq : Field4 := 6
/-- `OPC_STORE`. -/
def Code.opStore : Field4 := 7
/-- `OPC_IN`. -/
def Code.opIn : Field4 := 8
/-- `OPC_OUT`. -/
def Code.opOut : Field4 := 9

/-! Device codes (30_encoding.md R88, D4). -/

/-- `DEV_HALT`. -/
def Code.devHalt : Field5 := 0
/-- `DEV_TRANSMIT`. -/
def Code.devTransmit : Field5 := 1
/-- `DEV_BRANCH`. -/
def Code.devBranch : Field5 := 2

/-- The five fields of an instruction word (30_encoding.md R81). `oslot` and `dev` are the same bits. -/
structure Fields where
  op : Field4
  oslot : Field5
  oline : Field5
  nslot : Field5
  nline : Field5
  deriving DecidableEq, Repr

/-- The device field: the same bits as `oslot` (30_encoding.md R89). -/
def Fields.dev (f : Fields) : Field5 := f.oslot

/-- `op[3]`, the class bit: set for the I/O class (30_encoding.md R87). -/
def Fields.isIo (f : Fields) : Bool := f.op.getLsbD 3

/-- `decode(w)` of 30_encoding.md R83: the five fields of a word. -/
def decodeFields (w : Word) : Fields where
  op := BitVec.ofNat 4 (bits w (Layout.opLo + 3) Layout.opLo)
  oslot := BitVec.ofNat 5 (bits w (Layout.oslotLo + 4) Layout.oslotLo)
  oline := BitVec.ofNat 5 (bits w (Layout.olineLo + 4) Layout.olineLo)
  nslot := BitVec.ofNat 5 (bits w (Layout.nslotLo + 4) Layout.nslotLo)
  nline := BitVec.ofNat 5 (bits w (Layout.nlineLo + 4) Layout.nlineLo)

/-- `encode(op, oslot, oline, nslot, nline)` of 30_encoding.md R84, total on any five naturals; a field
too large is truncated to its width, which is intentional (R84, U14). -/
def encodeFields (op oslot oline nslot nline : Nat) : Word :=
  BitVec.ofNat 24 ((op % 16) * 2 ^ Layout.opLo + (oslot % 32) * 2 ^ Layout.oslotLo
    + (oline % 32) * 2 ^ Layout.olineLo + (nslot % 32) * 2 ^ Layout.nslotLo + (nline % 32) * 2 ^ Layout.nlineLo)

/-- The word of a tuple of fields. -/
def Fields.word (f : Fields) : Word :=
  encodeFields f.op.toNat f.oslot.toNat f.oline.toNat f.nslot.toNat f.nline.toNat

/-- Sub-decoding of `OUT` by its device field (30_encoding.md R88, R97). -/
def Instr.ofOutFields (f : Fields) : Instr :=
  if f.dev = Code.devHalt then .outHalt f.oline f.nslot f.nline
  else if f.dev = Code.devTransmit then .outTransmit f.oline f.nslot f.nline
  else if f.dev = Code.devBranch then .outBranch f.oline f.nslot f.nline
  else if f.dev = 3 then .outDev3 f.oline f.nslot f.nline
  else if f.dev.toNat ≤ 7 then .outDev4to7 f.dev f.oline f.nslot f.nline
  else if f.dev.toNat ≤ 15 then .outDev8to15 f.dev f.oline f.nslot f.nline
  else .outDev16to31 f.dev f.oline f.nslot f.nline

/-- The instruction a tuple of fields stands for: the opcode map of 30_encoding.md R97. -/
def Instr.ofFields (f : Fields) : Instr :=
  if f.op = Code.opLoad then .load f.oslot f.oline f.nslot f.nline
  else if f.op = Code.opAdd then .add f.oslot f.oline f.nslot f.nline
  else if f.op = Code.opSub then .sub f.oslot f.oline f.nslot f.nline
  else if f.op = Code.opAnd then .and f.oslot f.oline f.nslot f.nline
  else if f.op = Code.opXor then .xor f.oslot f.oline f.nslot f.nline
  else if f.op = Code.opRot then .rot f.oslot f.oline f.nslot f.nline
  else if f.op = Code.opBeq then .beq f.oslot f.oline f.nslot f.nline
  else if f.op = Code.opStore then .store f.oslot f.oline f.nslot f.nline
  else if f.op = Code.opIn then .inp f.dev f.oline f.nslot f.nline
  else if f.op = Code.opOut then Instr.ofOutFields f
  else if f.op = 10 then .reserved10 f.oslot f.oline f.nslot f.nline
  else if f.op = 11 then .reserved11 f.oslot f.oline f.nslot f.nline
  else if f.op = 12 then .reserved12 f.oslot f.oline f.nslot f.nline
  else if f.op = 13 then .reserved13 f.oslot f.oline f.nslot f.nline
  else if f.op = 14 then .reserved14 f.oslot f.oline f.nslot f.nline
  else .reserved15 f.oslot f.oline f.nslot f.nline

/-- The decoder: every word is an instruction (30_encoding.md R83, R94). -/
def decode (w : Word) : Instr := Instr.ofFields (decodeFields w)

/-- The fields of an instruction, from the same tables. -/
def Instr.fields : Instr → Fields
  | .load os ol ns nl => ⟨Code.opLoad, os, ol, ns, nl⟩
  | .add os ol ns nl => ⟨Code.opAdd, os, ol, ns, nl⟩
  | .sub os ol ns nl => ⟨Code.opSub, os, ol, ns, nl⟩
  | .and os ol ns nl => ⟨Code.opAnd, os, ol, ns, nl⟩
  | .xor os ol ns nl => ⟨Code.opXor, os, ol, ns, nl⟩
  | .rot os ol ns nl => ⟨Code.opRot, os, ol, ns, nl⟩
  | .beq os ol ns nl => ⟨Code.opBeq, os, ol, ns, nl⟩
  | .store os ol ns nl => ⟨Code.opStore, os, ol, ns, nl⟩
  | .inp dev ol ns nl => ⟨Code.opIn, dev, ol, ns, nl⟩
  | .outHalt ol ns nl => ⟨Code.opOut, Code.devHalt, ol, ns, nl⟩
  | .outTransmit ol ns nl => ⟨Code.opOut, Code.devTransmit, ol, ns, nl⟩
  | .outBranch ol ns nl => ⟨Code.opOut, Code.devBranch, ol, ns, nl⟩
  | .outDev3 ol ns nl => ⟨Code.opOut, 3, ol, ns, nl⟩
  | .outDev4to7 dev ol ns nl => ⟨Code.opOut, dev, ol, ns, nl⟩
  | .outDev8to15 dev ol ns nl => ⟨Code.opOut, dev, ol, ns, nl⟩
  | .outDev16to31 dev ol ns nl => ⟨Code.opOut, dev, ol, ns, nl⟩
  | .reserved10 hi lo ns nl => ⟨10, hi, lo, ns, nl⟩
  | .reserved11 hi lo ns nl => ⟨11, hi, lo, ns, nl⟩
  | .reserved12 hi lo ns nl => ⟨12, hi, lo, ns, nl⟩
  | .reserved13 hi lo ns nl => ⟨13, hi, lo, ns, nl⟩
  | .reserved14 hi lo ns nl => ⟨14, hi, lo, ns, nl⟩
  | .reserved15 hi lo ns nl => ⟨15, hi, lo, ns, nl⟩

/-- The encoder: the word of an instruction (30_encoding.md R84). -/
def encode (i : Instr) : Word := i.fields.word

/-- The class of an instruction: true for the ALU class, which waits for its operand slot
(30_encoding.md R87). -/
def Instr.isAlu (i : Instr) : Bool := !i.fields.isIo

/-- A row of spec/opcode_table.json: bits `hi:lo` of a word hold `value` exactly when the word is one of the
row's (its "fixed" entry); `row` is the row's place in the table, from 0. -/
structure OpcodeRow where
  row : Nat
  hi : Nat
  lo : Nat
  value : Nat
  deriving DecidableEq, Repr

/-- The ten rows that the opcode field alone selects, but for OUT: LOAD to IN (30_encoding.md R86). -/
def opcodeRowsNamed : List OpcodeRow :=
  [⟨0, 23, 20, 0⟩, ⟨1, 23, 20, 1⟩, ⟨2, 23, 20, 2⟩, ⟨3, 23, 20, 3⟩, ⟨4, 23, 20, 4⟩, ⟨5, 23, 20, 5⟩, ⟨6, 23, 20, 6⟩,
   ⟨7, 23, 20, 7⟩, ⟨8, 23, 20, 8⟩]

/-- The seven OUT rows, selected by opcode and device (30_encoding.md R88). -/
def opcodeRowsOut : List OpcodeRow :=
  [⟨9, 23, 15, 288⟩, ⟨10, 23, 15, 289⟩, ⟨11, 23, 15, 290⟩, ⟨12, 23, 15, 291⟩, ⟨13, 23, 17, 73⟩, ⟨14, 23, 18, 37⟩,
   ⟨15, 23, 19, 19⟩]

/-- The six reserved opcodes (30_encoding.md R91). -/
def opcodeRowsReserved : List OpcodeRow :=
  [⟨16, 23, 20, 10⟩, ⟨17, 23, 20, 11⟩, ⟨18, 23, 20, 12⟩, ⟨19, 23, 20, 13⟩, ⟨20, 23, 20, 14⟩, ⟨21, 23, 20, 15⟩]

/-- The 22 rows of spec/opcode_table.json, in its order. -/
def opcodeTable : List OpcodeRow := opcodeRowsNamed ++ opcodeRowsOut ++ opcodeRowsReserved

/-- The place in the table of the row an instruction belongs to. -/
def Instr.row : Instr → Nat
  | .load _ _ _ _ => 0
  | .add _ _ _ _ => 1
  | .sub _ _ _ _ => 2
  | .and _ _ _ _ => 3
  | .xor _ _ _ _ => 4
  | .rot _ _ _ _ => 5
  | .beq _ _ _ _ => 6
  | .store _ _ _ _ => 7
  | .inp _ _ _ _ => 8
  | .outHalt _ _ _ => 9
  | .outTransmit _ _ _ => 10
  | .outBranch _ _ _ => 11
  | .outDev3 _ _ _ => 12
  | .outDev4to7 _ _ _ _ => 13
  | .outDev8to15 _ _ _ _ => 14
  | .outDev16to31 _ _ _ _ => 15
  | .reserved10 _ _ _ _ => 16
  | .reserved11 _ _ _ _ => 17
  | .reserved12 _ _ _ _ => 18
  | .reserved13 _ _ _ _ => 19
  | .reserved14 _ _ _ _ => 20
  | .reserved15 _ _ _ _ => 21

/-- The host's entry: an instruction's bits `w`, `nbits` of them given by the table, the rest 0. An instruction
is one 24-bit word (30_encoding.md R80), so bits given beyond 24 are no instruction of this machine; the decoder
itself refuses no word (log 28). -/
def decodeTableWord (nbits w : Nat) : Option Instr :=
  if nbits ≤ 24 then some (decode (BitVec.ofNat 24 (w % 2 ^ nbits))) else none

end Sys2Proof
end

