-- ==== Sys2Proof/Machine/Params.lean ====
section
/-! DEFINITION. The default values of the open parameters (00_scope.md R7). They are the SPEC's choices, not the
source's: decisions D1 (geometry), D8 (reserved encodings), D6 (ROT). Logs 2, 9, 11. -/

namespace Sys2Proof.Machine

/-- The defaults: 32 lines of 32 slots, reserved encodings do nothing, ROT scans all 24 operand bits. -/
def defaultConfig : Config where
  nLines := 32
  nSlots := 32
  reserved := .noop
  rotBits := 24

end Sys2Proof.Machine
end

