-- ==== Sys2Proof/Machine/State.lean ====
section
/-! DEFINITION. The state of the UE2 drum core (10_state.md R20), the reasons a step can stop, and reset. -/

namespace Sys2Proof.Machine

/-- The fatal errors (60_exceptions.md R200, a closed set), each with the info the spec records. Each is
SAFE: the machine the spec describes stops there too, and no claim about a faulted run can succeed. -/
inductive Fault where
  /-- `RangeError(x)`: raised by ADD and SUB when the exact signed result `x` is outside `-2^23 .. 2^23 - 1`, and by
  `poke` and `validate` for a value outside `0 .. 2^24 - 1` (60_exceptions.md R201; D5). Safe. -/
  | rangeError (x : Int)
  /-- `OutOfRange(line, slot)`: raised by a fetch, an operand read, a STORE or a `poke` that names no cell
  (60_exceptions.md R202). Safe. -/
  | outOfRange (line slot : Nat)
  /-- `DomainError(f)`: raised by `fromFraction` only, never inside a step (60_exceptions.md R203). Safe. -/
  | domainError (f : Rat)
  /-- `ReservedEncoding(w)`: not an error of the source; raised by the reserved rows only under
  `RESERVED_POLICY = fault`, with the latched word (60_exceptions.md R205; D8). Safe. -/
  | reservedEncoding (w : Word)
  deriving DecidableEq, Repr

/-- What the machine has no meaning for. Each is SAFE: nothing can be concluded from a refusal. -/
inductive Refusal where
  /-- An instruction that has no meaning yet, by mnemonic; no arm of `exec` raises it. Safe. -/
  | notModelled (mnemonic : String)
  /-- Raised by a tick on a machine whose fault status is set (41_engine_cycle.md R131 "refuse"; 60_exceptions.md
  R210: no further step is defined). It carries the recorded fault. Safe (log 8). -/
  | alreadyFaulted (f : Fault)
  /-- Raised by `poke` after the first tick (70_reset_and_hazards.md R236; D15). Safe. -/
  | pokeAfterStart
  deriving DecidableEq, Repr

/-- Drum contents: (cell key, word) pairs in canonical form, keys strictly rising, no entry equal to the reset
content. Cells are whole 24-bit words; there are no bytes (20_memory.md R59; log 3). -/
abbrev Memory := List (Nat × Word)

/-- The complete architectural state (10_state.md R20), and the parameters of this machine (log 1). -/
structure State where
  /-- `ACC`, the accumulator (10_state.md R21). -/
  acc : Word
  /-- `IR`, the latched instruction word (10_state.md R22; log 27). -/
  ir : Word
  /-- `AWAIT`, the phase flag: true in the execute phase (10_state.md R25). -/
  await : Bool
  /-- `BP`, branch pending (10_state.md R26). -/
  bp : Bool
  /-- `HALT`, halted (10_state.md R27). -/
  halt : Bool
  /-- `TX`, the words transmitted, oldest first (10_state.md R20; 44_io.md R184). -/
  tx : List Word
  /-- `CUR`, the cursor; `cur < cfg.nSlots` is an invariant (10_state.md R29, R35). -/
  cur : Nat
  /-- `REV`, the revolution counter, unbounded (10_state.md R30; D12). -/
  rev : Nat
  /-- `DRUM`, the cells (10_state.md R32). -/
  drum : Memory
  /-- The fault status (10_state.md R20; 60_exceptions.md R210). -/
  fault : Option Fault
  /-- The parameters chosen at creation; no step changes them (00_scope.md R7; log 1). -/
  cfg : Config
  deriving DecidableEq, Repr

/-- The machine as created with parameters `c`: every element zero, false, empty or none (10_state.md R33). -/
def State.create (c : Config) : State where
  acc := 0
  ir := 0
  await := false
  bp := false
  halt := false
  tx := []
  cur := 0
  rev := 0
  drum := []
  fault := none
  cfg := c

/-- The machine right after reset, with the default parameters (10_state.md R33; 70_reset_and_hazards.md R230). -/
def State.reset : State := State.create defaultConfig

/-- What the observation port shows (00_scope.md R10): "accumulator value, Drum contents, cursor position,
revolution count, halted flag, and terminal output buffer". -/
structure Observation where
  acc : Word
  drum : Memory
  cur : Nat
  rev : Nat
  halt : Bool
  tx : List Word
  deriving DecidableEq, Repr

/-- A drum access of one tick (20_memory.md R58; 10_state.md R40): a read or a write of one cell. Not state. -/
inductive Access where
  | read (line slot : Nat)
  | write (line slot : Nat)
  deriving DecidableEq, Repr

/-- What one `Step` gives back (41_engine_cycle.md R131): the next state and whether a cycle completed. -/
structure StepOut where
  state : State
  completed : Bool
  deriving DecidableEq, Repr

end Sys2Proof.Machine
end

