-- ==== Sys2Proof/Machine/WordCodec.lean ====
section
/-! DEFINITION. The 24-bit word codec (40_word_codec.md): the signed and the fraction reading, range checks, the
arithmetic laws of ADD and SUB, the bitwise operations, population count and rotation (00_scope.md R13). None of
these changes machine state. -/

namespace Sys2Proof.Machine

/-- `toSigned(w)` (40_word_codec.md R111): bit 23 set means the complement within 24 bits plus one, negated. -/
def toSigned (w : Word) : Int :=
  if bits w 23 23 = 0 then (w.toNat : Int) else -(((2 ^ 24 - 1 : Int) - w.toNat) + 1)

/-- The signed range `-2^23 .. 2^23 - 1`, the domain of `fromSigned` (40_word_codec.md R112). -/
def inSignedRange (n : Int) : Bool := decide (-(2 ^ 23) ≤ n ∧ n ≤ 2 ^ 23 - 1)

/-- `fromSigned(n)` (40_word_codec.md R112); no value outside its domain (U1). -/
def fromSigned (n : Int) : Option Word :=
  if inSignedRange n then some (BitVec.ofNat 24 (if 0 ≤ n then n else n + 2 ^ 24).toNat) else none

/-- `fromSigned` where its result is checked: the caller error is `RangeError(n)` (40_word_codec.md R112, R118). -/
def encodeChecked (n : Int) : Except Fault Word :=
  match fromSigned n with
  | some w => .ok w
  | none => .error (.rangeError n)

/-- `validate(x)` (40_word_codec.md R116): `RangeError` outside `0 .. 2^24 - 1`, else the word. -/
def validate (x : Int) : Except Fault Word :=
  if 0 ≤ x ∧ x ≤ 2 ^ 24 - 1 then .ok (BitVec.ofNat 24 x.toNat) else .error (.rangeError x)

/-- `addW(a, b)` (40_word_codec.md R118): exact signed sum, range checked. -/
def addW (a b : Word) : Except Fault Word := encodeChecked (toSigned a + toSigned b)

/-- `subW(a, b)` (40_word_codec.md R118): exact signed difference, range checked. -/
def subW (a b : Word) : Except Fault Word := encodeChecked (toSigned a - toSigned b)

/-- `and24(a, b)` (00_scope.md R13; 40_word_codec.md R119): on the raw patterns. -/
def and24 (a b : Word) : Word := a &&& b

/-- `xor24(a, b)` (00_scope.md R13; 40_word_codec.md R119): on the raw patterns. -/
def xor24 (a b : Word) : Word := a ^^^ b

/-- The number of 1 bits among the low `k` bits of `v`; with `k = 24` it is `popcount(v)` (00_scope.md R13). -/
def popcountLow (v : Word) : Nat → Nat
  | 0 => 0
  | k + 1 => popcountLow v k + bits v k k

/-- `rotl24(v, n)` for `n < 24` (00_scope.md R13). -/
def rotl24 (v : Word) (n : Nat) : Word :=
  if n = 0 then v else BitVec.ofNat 24 ((v.toNat <<< n) % 2 ^ 24 + v.toNat >>> (24 - n))

/-- One single-bit left rotation (42_alu_data.md R156): bit `i` to bit `i + 1`, bit 23 to bit 0. -/
def rotateOnce (v : Word) : Word := (v <<< 1) ||| (v >>> 23)

/-- The source's own wording of ROT (42_alu_data.md R156): the low `k` bits of `x` are scanned from the least significant,
each set bit rotating `v` once. The meaning of ROT uses `rotl24`; this is what it is compared with. -/
def rotateScan (v x : Word) : Nat → Word
  | 0 => v
  | k + 1 => if bits x k k = 1 then rotateOnce (rotateScan v x k) else rotateScan v x k

/-- `FRAC_SCALE = 2^23 - 1` (00_scope.md R6). -/
def fracScale : Rat := 8388607

/-- `toFraction(w)` (40_word_codec.md R114): total, the signed value over the scale (conflict C5). -/
def toFraction (w : Word) : Rat := (toSigned w : Rat) / fracScale

/-- The default `FRAC_ROUND` (40_word_codec.md R115, D11; log 14): to nearest, ties away from zero. -/
def roundNearestAway (q : Rat) : Int :=
  if 0 ≤ q then (q + 1 / 2).floor else -((-q + 1 / 2).floor)

/-- `fromFraction(f)` with the rounding as an argument (40_word_codec.md R115): `DomainError` unless
`-1 < f < 1`. Reals are rationals here (00_scope.md R12). -/
def fromFractionWith (round : Rat → Int) (f : Rat) : Except Fault Word :=
  if f ≤ -1 ∨ 1 ≤ f then .error (.domainError f) else encodeChecked (round (f * fracScale))

/-- `fromFraction(f)` with the default rounding. -/
def fromFraction (f : Rat) : Except Fault Word := fromFractionWith roundNearestAway f

end Sys2Proof.Machine
end

