-- ==== Sys2Proof/Machine/Ops.lean ====
section
/-! DEFINITION. The named operations over the drum and the machine: cells, rotation, read, write, the load port,
raising a fatal error and recording it, observation (20_memory.md, 60_exceptions.md, 70_reset_and_hazards.md). -/

namespace Sys2Proof.Machine

/-! ## The drum as data -/

/-- What a cell never written reads as: 0x000000 (10_state.md R33, D14; log 4). -/
def unwrittenCell : Word := 0

/-- The key of the cell at `(line, slot)`; distinct for distinct locations with `slot < 32` (log 3). -/
def cellKey (line slot : Nat) : Nat := line * 32 + slot

/-- The word stored under a key. -/
def Memory.read : Memory → Nat → Word
  | [], _ => unwrittenCell
  | (k, w) :: rest, a => if k = a then w else Memory.read rest a

/-- Every key of the list lies above `k`. -/
def Memory.keysAbove (k : Nat) : Memory → Bool
  | [] => true
  | (k', _) :: rest => decide (k < k') && Memory.keysAbove k rest

/-- The canonical form: keys strictly rising, no entry equal to what an unlisted cell reads as. -/
def Memory.wf : Memory → Bool
  | [] => true
  | (k, w) :: rest => decide (w ≠ unwrittenCell) && Memory.keysAbove k rest && Memory.wf rest

/-- One entry in front of a list, left out when it says what an unlisted cell reads as. -/
def Memory.consCell (k : Nat) (v : Word) (m : Memory) : Memory :=
  if v = unwrittenCell then m else (k, v) :: m

/-- Replace the word under key `a`, keeping the canonical form. -/
def Memory.write : Memory → Nat → Word → Memory
  | [], a, v => Memory.consCell a v []
  | (k, w) :: rest, a, v =>
    if a < k then Memory.consCell a v ((k, w) :: rest)
    else if a = k then Memory.consCell a v rest
    else (k, w) :: Memory.write rest a v

/-- `DRUM[line][slot]`. -/
def State.cell (s : State) (line slot : Nat) : Word := s.drum.read (cellKey line slot)

/-- `DRUM[line][slot] <- v`. -/
def State.setCell (s : State) (line slot : Nat) (v : Word) : State :=
  { s with drum := s.drum.write (cellKey line slot) v }

/-! ## Fatal errors -/

/-- `raise E(info)` (00_scope.md R13): the step ends with the fatal error; it gives no next state. -/
def raise {α : Type} (e : Fault) : Host.Outcome α Fault Refusal := .fault e

/-- The whole effect of a fatal error on the state (60_exceptions.md R210, D13): the fault status is set, every
other element is as it was before the failing step. -/
def State.recordFault (s : State) (e : Fault) : State := { s with fault := some e }

/-! ## Rotation and access at the cursor -/

/-- `DrumStep` (20_memory.md R52). -/
def drumStep (s : State) : State :=
  let c := (s.cur + 1) % s.cfg.nSlots
  { s with cur := c, rev := if c = 0 then s.rev + 1 else s.rev }

/-- `DrumRead(line)` (20_memory.md R54): the cell of `line` under the cursor. -/
def drumRead (s : State) (line : Nat) : Except Fault Word :=
  if s.cfg.nLines ≤ line then .error (.outOfRange line s.cur) else .ok (s.cell line s.cur)

/-- `DrumWrite(line, value)` (20_memory.md R56): into the cell of `line` under the cursor. -/
def drumWrite (s : State) (line : Nat) (v : Word) : Host.Outcome State Fault Refusal :=
  if s.cfg.nLines ≤ line then raise (.outOfRange line s.cur) else .next (s.setCell line s.cur v)

/-- `ACC <- r` where `r` may be a fatal error instead of a word. -/
def setAcc (s : State) (r : Except Fault Word) : Host.Outcome State Fault Refusal :=
  match r with
  | .ok w => .next { s with acc := w }
  | .error e => raise e

/-! ## The load port and the observation port -/

/-- `started` (70_reset_and_hazards.md R236): at least one step since reset, that is, the tick count
`REV * N_SLOTS + CUR` (10_state.md R34) is not 0 (log 18). -/
def State.started (s : State) : Bool := decide (s.rev * s.cfg.nSlots + s.cur ≠ 0)

/-- `Poke(line, slot, value)` (20_memory.md R57, D15): refused once started; geometry before value (60_exceptions.md
R212); bypasses the cursor. -/
def poke (s : State) (line slot : Nat) (value : Int) : Host.Outcome State Fault Refusal :=
  if s.started then .refused .pokeAfterStart
  else if s.cfg.nLines ≤ line ∨ s.cfg.nSlots ≤ slot then raise (.outOfRange line slot)
  else match validate value with
    | .ok w => .next (s.setCell line slot w)
    | .error e => raise e

/-- A sequence of pokes, first to last, stopping at the first that does not succeed
(70_reset_and_hazards.md R236). -/
def loadImage (s : State) : List ((Nat × Nat) × Int) → Host.Outcome State Fault Refusal
  | [] => .next s
  | ((line, slot), value) :: rest =>
    match poke s line slot value with
    | .next t => loadImage t rest
    | .fault e => .fault e
    | .refused r => .refused r

/-- The observation port (00_scope.md R10): read-only. -/
def observe (s : State) : Observation where
  acc := s.acc
  drum := s.drum
  cur := s.cur
  rev := s.rev
  halt := s.halt
  tx := s.tx

end Sys2Proof.Machine
end

