-- ==== Sys2Proof/Machine/Operands.lean ====
section
/-! DEFINITION. The operand forms (30_encoding.md R90): the drum word `(oline, CUR)` of the ALU class, the device of
the I/O class, and the successor location; and when each phase's slot is under the cursor. -/

namespace Sys2Proof.Machine

/-- The five fields of the latched instruction (10_state.md R22). -/
def State.irFields (s : State) : Fields := decodeFields s.ir

/-- The slot the next fetch waits for (41_engine_cycle.md R133, D19; log 15): `(IR.nslot + BP) mod N_SLOTS`. -/
def State.fetchSlot (s : State) : Nat := (s.irFields.nslot.toNat + s.bp.toNat) % s.cfg.nSlots

/-- The line the next fetch reads. -/
def State.fetchLine (s : State) : Nat := s.irFields.nline.toNat

/-- The derived program counter (10_state.md R24): line and slot of the next fetch. -/
def State.pc (s : State) : Nat × Nat := (s.fetchLine, s.fetchSlot)

/-- The fetch phase's alignment test, with the cursor after rotation (41_engine_cycle.md R133). -/
def State.fetchAligned (s : State) : Bool := decide (s.cur = s.fetchSlot)

/-- The execute phase's alignment test (41_engine_cycle.md R134, D19, D20; log 15): the operand slot as it stands for
the ALU class, at once for the I/O class. -/
def State.executeAligned (s : State) : Bool :=
  if s.irFields.isIo then true else decide (s.cur = s.irFields.oslot.toNat)

/-- The ALU-class operand template (41_engine_cycle.md R140): `x = DrumRead(IR.oline)`, then the rest of the
instruction on `x`; `OutOfRange` comes first (60_exceptions.md R212). -/
def withOperand (s : State) (oline : Field5) (body : Word → Host.Outcome State Fault Refusal) :
    Host.Outcome State Fault Refusal :=
  match drumRead s oline.toNat with
  | .ok x => body x
  | .error e => raise e

end Sys2Proof.Machine
end

