-- ==== Sys2Proof/Machine/Flags.lean ====
section
/-! DEFINITION. The flags AWAIT, BP and HALT and every rule that writes one (10_state.md R25 to R27). There are no
carry, overflow, sign or zero flags. -/

namespace Sys2Proof.Machine

/-- BEQ's rule (43_control.md R171): set `BP` when `ACC` is zero, else leave it. -/
def branchIfZero (s : State) : State := if s.acc = 0 then { s with bp := true } else s

/-- OUT HALT's rule (44_io.md R183): set `HALT`. -/
def setHalt (s : State) : State := { s with halt := true }

/-- A fetch's rule (41_engine_cycle.md R133): latch `w`, clear `BP`, set `AWAIT`. -/
def latch (s : State) (w : Word) : State := { s with ir := w, bp := false, await := true }

/-- The end of an execute (41_engine_cycle.md R134): clear `AWAIT`. -/
def endExecute (s : State) : State := { s with await := false }

end Sys2Proof.Machine
end

