-- ==== Sys2Proof/Machine/Control.lean ====
section
/-! DEFINITION. The control instruction BEQ (43_control.md). Every instruction's transfer to its successor is the next
fetch (41_engine_cycle.md R133), in Machine/Engine.lean. -/

namespace Sys2Proof.Machine

/-- BEQ (43_control.md R171): the operand is read and discarded (D7; log 12), then `BP` is set if `ACC` is zero. -/
def execBeq (oline : Field5) (s : State) : Host.Outcome State Fault Refusal :=
  withOperand s oline fun _ => .next (branchIfZero s)

end Sys2Proof.Machine
end

