-- ==== Sys2Proof/Machine/Data.lean ====
section
/-! DEFINITION. The data instructions LOAD, ADD, SUB, AND, XOR, ROT, STORE (42_alu_data.md). Each meaning is the body
dispatched in the one tick where the instruction is aligned, after the rotation and before AWAIT is cleared
(R150; log 23). -/

namespace Sys2Proof.Machine

/-- LOAD (42_alu_data.md R151): `ACC <- x`. -/
def execLoad (oline : Field5) (s : State) : Host.Outcome State Fault Refusal :=
  withOperand s oline fun x => setAcc s (.ok x)

/-- ADD (42_alu_data.md R152): `ACC <- addW(ACC, x)`. -/
def execAdd (oline : Field5) (s : State) : Host.Outcome State Fault Refusal :=
  withOperand s oline fun x => setAcc s (addW s.acc x)

/-- SUB (42_alu_data.md R153): `ACC <- subW(ACC, x)`. -/
def execSub (oline : Field5) (s : State) : Host.Outcome State Fault Refusal :=
  withOperand s oline fun x => setAcc s (subW s.acc x)

/-- AND (42_alu_data.md R154): `ACC <- and24(ACC, x)`. -/
def execAnd (oline : Field5) (s : State) : Host.Outcome State Fault Refusal :=
  withOperand s oline fun x => setAcc s (.ok (and24 s.acc x))

/-- XOR (42_alu_data.md R155): `ACC <- xor24(ACC, x)`. -/
def execXor (oline : Field5) (s : State) : Host.Outcome State Fault Refusal :=
  withOperand s oline fun x => setAcc s (.ok (xor24 s.acc x))

/-- ROT (42_alu_data.md R156, D6; log 11): rotate `ACC` left by the population count of the scanned bits. -/
def execRot (oline : Field5) (s : State) : Host.Outcome State Fault Refusal :=
  withOperand s oline fun x => setAcc s (.ok (rotl24 s.acc (popcountLow x s.cfg.rotBits % 24)))

/-- STORE (42_alu_data.md R157; conflict C7): `DrumWrite(IR.oline, ACC)`, no read. -/
def execStore (oline : Field5) (s : State) : Host.Outcome State Fault Refusal :=
  drumWrite s oline.toNat s.acc

end Sys2Proof.Machine
end

