-- ==== Sys2Proof/Machine/Io.lean ====
section
/-! DEFINITION. The I/O-class instructions IN and OUT, the devices, and the reserved encodings (44_io.md). None
touches a drum cell (R180). The rendering of the transmit sequence stands here too; it is outside the core. -/

namespace Sys2Proof.Machine

/-- `Reserved()` (44_io.md R188, D8; log 9). -/
def reserved (s : State) : Host.Outcome State Fault Refusal :=
  match s.cfg.reserved with
  | .noop => .next s
  | .fault => raise (.reservedEncoding s.ir)

/-- IN (44_io.md R182): no effect, for every device. -/
def execIn (s : State) : Host.Outcome State Fault Refusal := .next s

/-- OUT HALT (44_io.md R183): `HALT <- true`. -/
def execOutHalt (s : State) : Host.Outcome State Fault Refusal := .next (setHalt s)

/-- OUT TRANSMIT (44_io.md R184): `TX <- TX ++ [ACC]`. -/
def execOutTransmit (s : State) : Host.Outcome State Fault Refusal := .next { s with tx := s.tx ++ [s.acc] }

/-- OUT BRANCH (44_io.md R186, D9; conflict C3): superseded; it does not set `BP`. -/
def execOutBranch (s : State) : Host.Outcome State Fault Refusal := reserved s

/-- OUT to device 3 (44_io.md R185). -/
def execOutDev3 (s : State) : Host.Outcome State Fault Refusal := reserved s

/-- OUT to devices 4 to 7 (44_io.md R185). -/
def execOutDev4to7 (s : State) : Host.Outcome State Fault Refusal := reserved s

/-- OUT to devices 8 to 15 (44_io.md R185). -/
def execOutDev8to15 (s : State) : Host.Outcome State Fault Refusal := reserved s

/-- OUT to devices 16 to 31 (44_io.md R185). -/
def execOutDev16to31 (s : State) : Host.Outcome State Fault Refusal := reserved s

/-- Opcode 10 (44_io.md R187). -/
def execReserved10 (s : State) : Host.Outcome State Fault Refusal := reserved s

/-- Opcode 11 (44_io.md R187). -/
def execReserved11 (s : State) : Host.Outcome State Fault Refusal := reserved s

/-- Opcode 12 (44_io.md R187). -/
def execReserved12 (s : State) : Host.Outcome State Fault Refusal := reserved s

/-- Opcode 13 (44_io.md R187). -/
def execReserved13 (s : State) : Host.Outcome State Fault Refusal := reserved s

/-- Opcode 14 (44_io.md R187). -/
def execReserved14 (s : State) : Host.Outcome State Fault Refusal := reserved s

/-- Opcode 15 (44_io.md R187). -/
def execReserved15 (s : State) : Host.Outcome State Fault Refusal := reserved s

/-- The decimal numeral of an integer: a leading `-` for negatives, no leading zeros, `0` for zero. -/
def decimalNumeral (n : Int) : List Char :=
  if n < 0 then '-' :: Nat.toDigits 10 n.natAbs else Nat.toDigits 10 n.natAbs

/-- The source's terminal text buffer as a rendering of `TX` (44_io.md R184, D10; log 13): each word's signed decimal
followed by the separator `TX_SEP`, an open parameter. No step reads it. -/
def renderTx (sep : List Char) (tx : List Word) : List Char :=
  tx.flatMap fun w => decimalNumeral (toSigned w) ++ sep

end Sys2Proof.Machine
end

