-- ==== Sys2Proof/Machine/Dispatch.lean ====
section
/-! DEFINITION. The dispatch of an execute (41_engine_cycle.md R134): one arm per instruction, each one call of its
meaning. `s` is the state after the tick's rotation. -/

namespace Sys2Proof.Machine

def exec (i : Instr) (s : State) : Host.Outcome State Fault Refusal :=
  match i with
  -- ALU class: the operand line; the slot is the cursor's (20_memory.md R51)
  | .load _ oline _ _ => Sys2Proof.Machine.execLoad oline s
  | .add _ oline _ _ => Sys2Proof.Machine.execAdd oline s
  | .sub _ oline _ _ => Sys2Proof.Machine.execSub oline s
  | .and _ oline _ _ => Sys2Proof.Machine.execAnd oline s
  | .xor _ oline _ _ => Sys2Proof.Machine.execXor oline s
  | .rot _ oline _ _ => Sys2Proof.Machine.execRot oline s
  | .beq _ oline _ _ => Sys2Proof.Machine.execBeq oline s
  | .store _ oline _ _ => Sys2Proof.Machine.execStore oline s
  -- I/O class: the operand line is ignored (30_encoding.md R89)
  | .inp _ _ _ _ => Sys2Proof.Machine.execIn s
  | .outHalt _ _ _ => Sys2Proof.Machine.execOutHalt s
  | .outTransmit _ _ _ => Sys2Proof.Machine.execOutTransmit s
  | .outBranch _ _ _ => Sys2Proof.Machine.execOutBranch s
  | .outDev3 _ _ _ => Sys2Proof.Machine.execOutDev3 s
  | .outDev4to7 _ _ _ _ => Sys2Proof.Machine.execOutDev4to7 s
  | .outDev8to15 _ _ _ _ => Sys2Proof.Machine.execOutDev8to15 s
  | .outDev16to31 _ _ _ _ => Sys2Proof.Machine.execOutDev16to31 s
  | .reserved10 _ _ _ _ => Sys2Proof.Machine.execReserved10 s
  | .reserved11 _ _ _ _ => Sys2Proof.Machine.execReserved11 s
  | .reserved12 _ _ _ _ => Sys2Proof.Machine.execReserved12 s
  | .reserved13 _ _ _ _ => Sys2Proof.Machine.execReserved13 s
  | .reserved14 _ _ _ _ => Sys2Proof.Machine.execReserved14 s
  | .reserved15 _ _ _ _ => Sys2Proof.Machine.execReserved15 s

end Sys2Proof.Machine
end

