-- ==== Sys2Proof/Machine/Engine.lean ====
section
/-! DEFINITION. The Engine's fetch/execute state machine (41_engine_cycle.md): the two phases, the step with its
`completed` output, the tick as the host sees it, the drum access of a tick. -/

namespace Sys2Proof.Machine

/-- `FetchPhase` (41_engine_cycle.md R133), on the state after rotation; an idle tick when not aligned (R135). -/
def fetchPhase (s : State) : Host.Outcome StepOut Fault Refusal :=
  if s.fetchAligned then
    match drumRead s s.fetchLine with
    | .ok w => .next ⟨latch s w, false⟩
    | .error e => raise e
  else .next ⟨s, false⟩

/-- `ExecutePhase` (41_engine_cycle.md R134), on the state after rotation; an idle tick when not aligned (R135). -/
def executePhase (s : State) : Host.Outcome StepOut Fault Refusal :=
  if s.executeAligned then
    match exec (decode s.ir) s with
    | .next t => .next ⟨endExecute t, true⟩
    | .fault e => .fault e
    | .refused r => .refused r
  else .next ⟨s, false⟩

/-- `Step` (41_engine_cycle.md R131): refuse on a faulted machine; rotate; then nothing more if halted, else the
current phase. A fatal error ends the step with no next state, so none of its writes happen. -/
def stepOut (s : State) : Host.Outcome StepOut Fault Refusal :=
  match s.fault with
  | some f => .refused (.alreadyFaulted f)
  | none =>
    let r := drumStep s
    if r.halt then .next ⟨r, false⟩
    else if r.await then executePhase r
    else fetchPhase r

/-- The state part of a step's outcome. -/
def dropCompleted : Host.Outcome StepOut Fault Refusal → Host.Outcome State Fault Refusal
  | .next o => .next o.state
  | .fault e => .fault e
  | .refused r => .refused r

/-- The machine after one activation of the tick input, whatever its outcome (60_exceptions.md R210; log 7): a fatal
error is recorded and changes nothing else; a refused step changes nothing. -/
def tick (s : State) : State :=
  match stepOut s with
  | .next o => o.state
  | .fault e => s.recordFault e
  | .refused _ => s

/-- The machine after `k` ticks. -/
def ticks : Nat → State → State
  | 0, s => s
  | k + 1, s => ticks k (tick s)

/-- The drum access an aligned execute makes, `r` being the state after rotation (20_memory.md R58;
41_engine_cycle.md R140). -/
def executeAccess (i : Instr) (r : State) : Option Access :=
  match i with
  | .load _ ol _ _ | .add _ ol _ _ | .sub _ ol _ _ | .and _ ol _ _ | .xor _ ol _ _ | .rot _ ol _ _
  | .beq _ ol _ _ => some (.read ol.toNat r.cur)
  | .store _ ol _ _ => some (.write ol.toNat r.cur)
  | .inp _ _ _ _ | .outHalt _ _ _ | .outTransmit _ _ _ | .outBranch _ _ _ | .outDev3 _ _ _ => none
  | .outDev4to7 _ _ _ _ | .outDev8to15 _ _ _ _ | .outDev16to31 _ _ _ _ => none
  | .reserved10 _ _ _ _ | .reserved11 _ _ _ _ | .reserved12 _ _ _ _ => none
  | .reserved13 _ _ _ _ | .reserved14 _ _ _ _ | .reserved15 _ _ _ _ => none

/-- The at most one drum access of a tick (20_memory.md R58), the optional event of 10_state.md R40 (log 19);
`none` for an idle, halted or I/O-class tick, and for a tick that ends in a fatal error or is refused. -/
def tickAccess (s : State) : Option Access :=
  let r := drumStep s
  match stepOut s with
  | .next _ =>
    if r.halt then none
    else if r.await then (if r.executeAligned then executeAccess (decode r.ir) r else none)
    else (if r.fetchAligned then some (.read r.fetchLine r.cur) else none)
  | _ => none

end Sys2Proof.Machine
end

