-- ==== Sys2Proof/Machine/Step.lean ====
section
/-! DEFINITION. The step the host runs: one tick (41_engine_cycle.md R131; log 6), and the placing of one instruction
so that the very next step runs it. -/

namespace Sys2Proof.Machine

/-- One tick of the machine; the `completed` output is `stepOut`'s. -/
def step (s : State) : Host.Outcome State Fault Refusal := dropCompleted (stepOut s)

/-- `s` with the instruction word `w` loaded at the location the next fetch reads, fetched from it, and the cursor one
slot before the slot it executes at, so that the next step runs it (log 17): a tick either fetches or executes
(41_engine_cycle.md R136), so running in the very next step needs the fetch done. An operand slot beyond the geometry
never comes under the cursor (70_reset_and_hazards.md R245). -/
def State.withFetchWord (s : State) (nbits w : Nat) : State :=
  let word : Word := BitVec.ofNat 24 (w % 2 ^ nbits)
  let loaded := latch (s.setCell s.fetchLine s.fetchSlot word) word
  let f := loaded.irFields
  { loaded with
    halt := false
    fault := none
    cur := if f.isIo then s.cur else (f.oslot.toNat + s.cfg.nSlots - 1) % s.cfg.nSlots }

end Sys2Proof.Machine
end

