-- ==== Sys2Proof/Machine/Program.lean ====
section
/-! DEFINITION. The spec's assembly notation (30_encoding.md R100 to R102, D17; log 22) as data: what a data line and an
instruction line load. The text and its parser are excluded (00_scope.md R4 a). No step reads it. -/

namespace Sys2Proof.Machine

/-- The four kinds of literal of a data line (30_encoding.md R101). -/
inductive Literal where
  | decimal (n : Int)
  | hexadecimal (v : Int)
  | binary (v : Int)
  | fraction (f : Rat)
  deriving DecidableEq, Repr

/-- The mnemonics of the ALU class (30_encoding.md R102). -/
inductive AluMnemonic where
  | LOAD | ADD | SUB | AND | XOR | ROT | BEQ | STORE
  deriving DecidableEq, Repr

/-- The mnemonics of the I/O class (30_encoding.md R102). -/
inductive IoMnemonic where
  | IN | OUT
  deriving DecidableEq, Repr

/-- A device operand: one of the three names, or a number (30_encoding.md R88, R102). -/
inductive DeviceOperand where
  | HALT | TRANSMIT | BRANCH
  | number (d : Nat)
  deriving DecidableEq, Repr

/-- A line of program text (30_encoding.md R100); locations are (line, slot), `place` is where the word is placed. -/
inductive ProgramLine where
  /-- `@L:S DATA literal`. -/
  | data (place : Nat × Nat) (lit : Literal)
  /-- `@L:S OL:OS MNEMONIC NL:NS`. -/
  | alu (place operand : Nat × Nat) (m : AluMnemonic) (next : Nat × Nat)
  /-- `@L:S DEVICE MNEMONIC NL:NS`; the ignored operand line is 0 (30_encoding.md R89). -/
  | io (place : Nat × Nat) (d : DeviceOperand) (m : IoMnemonic) (next : Nat × Nat)
  deriving DecidableEq, Repr

/-- The word of a literal (30_encoding.md R101). -/
def literalWord : Literal → Except Fault Word
  | .decimal n => encodeChecked n
  | .hexadecimal v => validate v
  | .binary v => validate v
  | .fraction f => fromFraction f

/-- The code of an ALU-class mnemonic (30_encoding.md R86). -/
def aluCode : AluMnemonic → Field4
  | .LOAD => Code.opLoad
  | .ADD => Code.opAdd
  | .SUB => Code.opSub
  | .AND => Code.opAnd
  | .XOR => Code.opXor
  | .ROT => Code.opRot
  | .BEQ => Code.opBeq
  | .STORE => Code.opStore

/-- The code of an I/O-class mnemonic (30_encoding.md R86). -/
def ioCode : IoMnemonic → Field4
  | .IN => Code.opIn
  | .OUT => Code.opOut

/-- The number of a device operand (30_encoding.md R88). -/
def deviceNumber : DeviceOperand → Nat
  | .HALT => Code.devHalt.toNat
  | .TRANSMIT => Code.devTransmit.toNat
  | .BRANCH => Code.devBranch.toNat
  | .number d => d

/-- The (location, word) pair a line loads (70_reset_and_hazards.md R236). -/
def assembleLine : ProgramLine → Except Fault ((Nat × Nat) × Int)
  | .data place lit => (literalWord lit).map fun w => (place, (w.toNat : Int))
  | .alu place operand m next =>
    .ok (place, ((encodeFields (aluCode m).toNat operand.2 operand.1 next.2 next.1).toNat : Int))
  | .io place d m next =>
    .ok (place, ((encodeFields (ioCode m).toNat (deviceNumber d) 0 next.2 next.1).toNat : Int))

/-- Load a program line by line through the load port. -/
def loadProgram (s : State) : List ProgramLine → Host.Outcome State Fault Refusal
  | [] => .next s
  | l :: rest =>
    match assembleLine l with
    | .error e => raise e
    | .ok ((line, slot), value) =>
      match poke s line slot value with
      | .next t => loadProgram t rest
      | .fault e => .fault e
      | .refused r => .refused r

end Sys2Proof.Machine
end

