-- ==== Sys2Proof/Safety.lean ====
section
/-! DEFINITION. What counts as a safe run, in the terms statements use: the Engine's three states, the ends of a run,
and the invariant of every reachable state. -/

namespace Sys2Proof.Machine

/-- The Engine's states as the source names them (10_state.md R28). -/
inductive EnginePhase where
  | fetching
  | executing
  | halted
  deriving DecidableEq, Repr

/-- The Engine's state in terms of the flags (10_state.md R28). -/
def State.phase (s : State) : EnginePhase :=
  if s.halt then .halted else if s.await then .executing else .fetching

/-- The only successful end of a run (70_reset_and_hazards.md R238 a): halted, no fatal error. -/
abbrev State.EndedWell (s : State) : Prop := s.halt = true ∧ s.fault = none

/-- The machine can be ticked: no fatal error is recorded (60_exceptions.md R210). -/
abbrev State.Alive (s : State) : Prop := s.fault = none

/-- The coming tick is a halted rotation (41_engine_cycle.md R132, R136). -/
abbrev State.HaltedTick (s : State) : Prop := s.Alive ∧ s.halt = true

/-- The coming tick is a fetch (41_engine_cycle.md R133, R136): the fetch slot comes under the cursor. -/
abbrev State.FetchTick (s : State) : Prop :=
  s.Alive ∧ s.halt = false ∧ s.await = false ∧ (drumStep s).fetchAligned = true

/-- The coming tick is an execute (41_engine_cycle.md R134, R136): the latched instruction becomes aligned. -/
abbrev State.ExecuteTick (s : State) : Prop :=
  s.Alive ∧ s.halt = false ∧ s.await = true ∧ (drumStep s).executeAligned = true

/-- The coming tick is an idle rotation (41_engine_cycle.md R135, R136): neither alignment condition holds. -/
abbrev State.IdleTick (s : State) : Prop :=
  s.Alive ∧ s.halt = false ∧
    (s.await = false ∧ (drumStep s).fetchAligned = false ∨ s.await = true ∧ (drumStep s).executeAligned = false)

/-- `s` after `j` ticks that only rotate the drum: the cursor and the revolution counter read off the tick count
(20_memory.md R53; 10_state.md R34). -/
def State.turned (s : State) (j : Nat) : State :=
  { s with
    cur := (s.rev * s.cfg.nSlots + s.cur + j) % s.cfg.nSlots
    rev := (s.rev * s.cfg.nSlots + s.cur + j) / s.cfg.nSlots }

/-- The ticks from now until slot `w` is next under the cursor after a rotation, 1 to `N_SLOTS`
(20_memory.md R71): `((w - c - 1) mod N_SLOTS) + 1`. -/
def State.ticksUntil (s : State) (w : Nat) : Nat :=
  (((w : Int) - (s.cur : Int) - 1) % (s.cfg.nSlots : Int)).toNat + 1

/-- The instructions that write ACC (10_state.md R20, R21): LOAD, ADD, SUB, AND, XOR, ROT. -/
def writesAcc : Instr → Bool
  | .load _ _ _ _ | .add _ _ _ _ | .sub _ _ _ _ | .and _ _ _ _ | .xor _ _ _ _ | .rot _ _ _ _ => true
  | .beq _ _ _ _ | .store _ _ _ _ | .inp _ _ _ _ => false
  | .outHalt _ _ _ | .outTransmit _ _ _ | .outBranch _ _ _ | .outDev3 _ _ _ => false
  | .outDev4to7 _ _ _ _ | .outDev8to15 _ _ _ _ | .outDev16to31 _ _ _ _ => false
  | .reserved10 _ _ _ _ | .reserved11 _ _ _ _ | .reserved12 _ _ _ _ => false
  | .reserved13 _ _ _ _ | .reserved14 _ _ _ _ | .reserved15 _ _ _ _ => false

/-- The rows whose operation is `Reserved()` (44_io.md R185 to R188). -/
def isReserved : Instr → Bool
  | .load _ _ _ _ | .add _ _ _ _ | .sub _ _ _ _ | .and _ _ _ _ | .xor _ _ _ _ | .rot _ _ _ _ => false
  | .beq _ _ _ _ | .store _ _ _ _ | .inp _ _ _ _ => false
  | .outHalt _ _ _ | .outTransmit _ _ _ => false
  | .outBranch _ _ _ | .outDev3 _ _ _ => true
  | .outDev4to7 _ _ _ _ | .outDev8to15 _ _ _ _ | .outDev16to31 _ _ _ _ => true
  | .reserved10 _ _ _ _ | .reserved11 _ _ _ _ | .reserved12 _ _ _ _ => true
  | .reserved13 _ _ _ _ | .reserved14 _ _ _ _ | .reserved15 _ _ _ _ => true

/-- The tick count recovered from the state (10_state.md R34). -/
def State.tickCount (s : State) : Nat := s.rev * s.cfg.nSlots + s.cur

/-- Every cell listed lies inside the geometry (20_memory.md R63). -/
abbrev State.DrumInGeometry (s : State) : Prop :=
  ∀ p ∈ s.drum, p.1 / 32 < s.cfg.nLines ∧ p.1 % 32 < s.cfg.nSlots

/-- A fatal error that a step can raise (60_exceptions.md R201 to R205): never `DomainError`. -/
abbrev Fault.OfStep (f : Fault) : Prop := ∀ q, f ≠ .domainError q

/-- The invariants of every reachable state (10_state.md R35), with the canonical form of the drum's data. -/
structure State.Inv (s : State) : Prop where
  /-- The parameters are admissible (00_scope.md R7). -/
  cfgValid : s.cfg.Valid
  /-- "`CUR < N_SLOTS`". -/
  curInRange : s.cur < s.cfg.nSlots
  /-- The drum's data is canonical. -/
  drumCanonical : s.drum.wf = true
  /-- The drum's data lists only cells that exist. -/
  drumInGeometry : s.DrumInGeometry
  /-- "if `HALT` then `AWAIT = false`". -/
  haltNotAwaiting : s.halt = true → s.await = false
  /-- "if `BP` then `AWAIT = false`, `HALT = false`, `IR.op = OPC_BEQ` and `ACC = 0`". -/
  branchPending : s.bp = true →
    s.await = false ∧ s.halt = false ∧ s.irFields.op = Code.opBeq ∧ s.acc = 0
  /-- A recorded fault is one a step can raise. -/
  faultOfStep : ∀ f, s.fault = some f → f.OfStep

end Sys2Proof.Machine
end

