-- ==== Sys2Proof/Certificates/Slice0/Obligations.lean ====
section
/-! DEFINITION. The statements for the provers. Each docstring names the rule of spec/ the statement comes from; where the
statement rests on one of the spec's own decisions (D<n>) or on a choice of the model, it says so and names the log row. -/

open Sys2Proof Sys2Proof.Machine

/-! ## The Instruction codec -/

/-- 30_encoding.md R85: decode and encode are inverse on fields, and decode is a bijection. The laws hold for any layout,
so they do not test D2. -/
def Obligations.FieldsAndWordsAreInverse : Prop :=
  (∀ w : Word, (decodeFields w).word = w) ∧ (∀ f : Fields, decodeFields f.word = f) ∧
    (∀ op os ol ns nl : Nat, op < 16 → os < 32 → ol < 32 → ns < 32 → nl < 32 →
      decodeFields (encodeFields op os ol ns nl) =
        ⟨BitVec.ofNat 4 op, BitVec.ofNat 5 os, BitVec.ofNat 5 ol, BitVec.ofNat 5 ns, BitVec.ofNat 5 nl⟩) ∧
    Function.Bijective decodeFields

/-- 30_encoding.md R85 at the level of instructions: decoding the word of a well-formed instruction gives it back, for all
22 constructors and every value of every field. -/
def Obligations.DecodeOfEncodeIsTheInstruction : Prop :=
  ∀ i : Instr, i.WellFormed = true → decode (encode i) = i

/-- 30_encoding.md R83, R94: every word decodes to a well-formed instruction, and no bit of it is lost. -/
def Obligations.EveryWordIsOneWellFormedInstruction : Prop :=
  ∀ w : Word, (decode w).WellFormed = true ∧ encode (decode w) = w

/-- 30_encoding.md R84: a field too large is truncated to its width, and what is encoded is what is decoded. -/
def Obligations.EncodingTruncatesEachField : Prop :=
  ∀ op os ol ns nl : Nat,
    encodeFields op os ol ns nl = encodeFields (op % 16) (os % 32) (ol % 32) (ns % 32) (nl % 32) ∧
    (decodeFields (encodeFields op os ol ns nl)).op.toNat = op % 16 ∧
    (decodeFields (encodeFields op os ol ns nl)).oslot.toNat = os % 32 ∧
    (decodeFields (encodeFields op os ol ns nl)).oline.toNat = ol % 32 ∧
    (decodeFields (encodeFields op os ol ns nl)).nslot.toNat = ns % 32 ∧
    (decodeFields (encodeFields op os ol ns nl)).nline.toNat = nl % 32

/-- The opcode table (opcode_table.json; 30_encoding.md R86, R88, R97; D2, D3, D4, log 16): a row's fixed bits are found in a
word exactly when the decoder gives an instruction of that row. So the 22 rows are disjoint and cover every word. -/
def Obligations.TableRowSelectsTheDecodedInstruction : Prop :=
  ∀ w : Word, ∀ r ∈ opcodeTable, bits w r.hi r.lo = r.value ↔ (decode w).row = r.row

/-- Words written out from the field table of 30_encoding.md R82 (D2, D3, D4; log 16), one or two of each family. -/
def Obligations.WrittenOutWordsDecode : Prop :=
  decode 0b0000_00010_10111_00011_00000 = .load 2 23 3 0 ∧
  decode 0b0001_00100_10111_00101_00000 = .add 4 23 5 0 ∧
  decode 0b0111_00110_10111_00111_00000 = .store 6 23 7 0 ∧
  decode 0b0110_00101_00000_00110_00000 = .beq 5 0 6 0 ∧
  decode 0b1000_00000_00000_00010_00000 = .inp 0 0 2 0 ∧
  decode 0b1001_00001_00000_10000_00000 = .outTransmit 0 16 0 ∧
  decode 0b1001_00111_00000_00110_00000 = .outDev4to7 7 0 6 0 ∧
  decode 0b1010_00101_11111_00010_00000 = .reserved10 5 31 2 0

/-- 30_encoding.md R87, R89: the class bit is the opcode's high bit, and an I/O-class instruction does the same whatever
its operand line holds. That the opcode's high bit is bit 23 of the word is the layout, decision D2 (log 16). -/
def Obligations.TopBitIsTheClassAndIoIgnoresTheLine : Prop :=
  (∀ w : Word, (decode w).isAlu = !w.getLsbD 23) ∧
    (∀ (f : Fields) (ol : Field5) (s : State), f.isIo = true →
      exec (Instr.ofFields { f with oline := ol }) s = exec (Instr.ofFields f) s)

/-! ## The word codec -/

/-- 40_word_codec.md R111. -/
def Obligations.ToSignedIsTwosComplement : Prop :=
  (∀ w : Word, w.getLsbD 23 = false → toSigned w = (w.toNat : Int)) ∧
    (∀ w : Word, w.getLsbD 23 = true →
      toSigned w = -(((~~~w).toNat : Int) + 1) ∧ toSigned w = (w.toNat : Int) - 2 ^ 24 ∧ toSigned w < 0) ∧
    (∀ w : Word, -(2 ^ 23) ≤ toSigned w ∧ toSigned w ≤ 2 ^ 23 - 1) ∧
    toSigned 0x000000 = 0 ∧ toSigned 0x7FFFFF = 8388607 ∧ toSigned 0x800000 = -8388608 ∧ toSigned 0xFFFFFF = -1

/-- 40_word_codec.md R112, R113 (its converse is the spec's derivation; no value outside the domain is U1 and D5, log 10):
the two maps are inverse, the encodings are those of the rule, there is one zero and no word for `2^23`. -/
def Obligations.SignedEncodingRoundTrips : Prop :=
  (∀ n : Int, -(2 ^ 23) ≤ n → n < 2 ^ 23 → ∃ w, fromSigned n = some w ∧ toSigned w = n ∧
    (0 ≤ n → (w.toNat : Int) = n) ∧ (n < 0 → (w.toNat : Int) = n + 2 ^ 24 ∧ w.getLsbD 23 = true)) ∧
    (∀ n : Int, n < -(2 ^ 23) ∨ 2 ^ 23 ≤ n → fromSigned n = none) ∧
    (∀ w : Word, fromSigned (toSigned w) = some w) ∧ (∀ w : Word, toSigned w = 0 ↔ w = 0) ∧
    (∀ w : Word, toSigned w ≠ 2 ^ 23)

/-- 40_word_codec.md R118 (the range criterion is D5, log 10): ADD's and SUB's result is the exact signed one, equal to the
sum or difference modulo `2^24`, or `RangeError` with the exact number; operands of opposite sign never overflow a sum, operands
of the same sign never a difference. -/
def Obligations.SignedSumsAreExactOrRangeErrors : Prop :=
  (∀ a b w : Word, addW a b = .ok w ↔ toSigned w = toSigned a + toSigned b) ∧
    (∀ a b w : Word, subW a b = .ok w ↔ toSigned w = toSigned a - toSigned b) ∧
    (∀ a b w : Word, addW a b = .ok w → w = a + b) ∧ (∀ a b w : Word, subW a b = .ok w → w = a - b) ∧
    (∀ (a b : Word) (e : Fault), addW a b = .error e ↔ e = .rangeError (toSigned a + toSigned b) ∧
      (toSigned a + toSigned b < -(2 ^ 23) ∨ 2 ^ 23 - 1 < toSigned a + toSigned b)) ∧
    (∀ (a b : Word) (e : Fault), subW a b = .error e ↔ e = .rangeError (toSigned a - toSigned b) ∧
      (toSigned a - toSigned b < -(2 ^ 23) ∨ 2 ^ 23 - 1 < toSigned a - toSigned b)) ∧
    (∀ a b : Word, toSigned a < 0 → 0 ≤ toSigned b → ∃ w, addW a b = .ok w) ∧
    (∀ a b : Word, (toSigned a < 0 ↔ toSigned b < 0) → ∃ w, subW a b = .ok w) ∧
    (∀ a : Word, subW a a = .ok 0 ∧ addW a 0 = .ok a ∧ subW a 0 = .ok a)

/-- 40_word_codec.md R119 (the spec's derivation): AND and XOR on the raw patterns are AND and XOR of the signed readings in
unbounded two's complement. -/
def Obligations.BitwiseAgreesWithSignedReading : Prop :=
  ∀ a b : Word, toSigned (and24 a b) = Int.land (toSigned a) (toSigned b) ∧
    toSigned (xor24 a b) = Int.xor (toSigned a) (toSigned b)

/-- 42_alu_data.md R156 (the total amount is the spec's derivation): rotating by the population count is the source's scan,
one single-bit left rotation per set bit, for every number of low bits scanned (D6, log 11); and a single rotation moves bit `i`
to bit `i + 1` and bit 23 to bit 0. -/
def Obligations.RotationIsOneStepPerSetBit : Prop :=
  (∀ (acc x : Word) (k : Nat), k ≤ 24 → rotl24 acc (popcountLow x k % 24) = rotateScan acc x k) ∧
    (∀ (v : Word) (i : Nat), i < 23 → (rotateOnce v).getLsbD (i + 1) = v.getLsbD i) ∧
    (∀ v : Word, (rotateOnce v).getLsbD 0 = v.getLsbD 23)

/-- 40_word_codec.md R117, R115 (rounding is D11, log 14; the half unit is the spec's derivation): the round trip is within half
a unit with the default rounding and within one unit with every admissible rounding. -/
def Obligations.FractionRoundTripWithinOneUnit : Prop :=
  (∀ f : Rat, -1 < f → f < 1 → ∃ w, fromFraction f = .ok w ∧ |toFraction w - f| ≤ 1 / (2 * 8388607)) ∧
    (∀ round : Rat → Int,
      (∀ q : Rat, |q| < 8388607 → |(round q : Rat) - q| ≤ 1 ∧ |round q| ≤ 8388607) →
      ∀ f : Rat, -1 < f → f < 1 → ∃ w, fromFractionWith round f = .ok w ∧ |toFraction w - f| ≤ 1 / 8388607 ∧ w ≠ 0x800000)

/-- 60_exceptions.md R203: `DomainError` comes from `fromFraction` outside the open interval and from nothing else; no step and
no poke raises it. -/
def Obligations.DomainErrorOnlyFromFraction : Prop :=
  (∀ f q : Rat, fromFraction f = .error (.domainError q) ↔ q = f ∧ (f ≤ -1 ∨ 1 ≤ f)) ∧
    (∀ (s : State) (q : Rat), step s ≠ .fault (.domainError q)) ∧
    (∀ (s : State) (l sl : Nat) (v : Int) (q : Rat), poke s l sl v ≠ .fault (.domainError q))

/-! ## The drum -/

/-- 20_memory.md R52: `DrumStep` advances the cursor modulo the slot count, counts a revolution exactly on a wrap to zero and
changes nothing else; every tick that goes on performs it exactly once. Its corner case `N_SLOTS = 1` is the spec's derivation. -/
def Obligations.EveryTickRotatesTheDrumOnce : Prop :=
  (∀ s : State, drumStep s =
    { s with cur := (s.cur + 1) % s.cfg.nSlots, rev := s.rev + if (s.cur + 1) % s.cfg.nSlots = 0 then 1 else 0 }) ∧
    (∀ s t : State, step s = .next t → t.cur = (s.cur + 1) % s.cfg.nSlots ∧
      t.rev = s.rev + if (s.cur + 1) % s.cfg.nSlots = 0 then 1 else 0) ∧
    (∀ s t : State, s.cfg.nSlots = 1 → step s = .next t → t.cur = 0 ∧ t.rev = s.rev + 1)

/-- 20_memory.md R53 (the cursor's half is the spec's derivation): `k` ticks, none of which raised, from a zero cursor and a zero
revolution count leave `CUR = k mod N_SLOTS` and `REV = floor(k / N_SLOTS)`, whatever the drum holds. -/
def Obligations.RevolutionsCountTheTicks : Prop :=
  ∀ (s : State) (k : Nat), s.cfg.Valid → s.cur = 0 → s.rev = 0 → (ticks k s).fault = none →
    (ticks k s).cur = k % s.cfg.nSlots ∧ (ticks k s).rev = k / s.cfg.nSlots

/-- 20_memory.md R60 (the reset content is D14, log 4): after any sequence of writes to a fresh drum, a cell holds the word of
the latest write to it, or 0 if there was none. -/
def Obligations.ReadsReturnTheLatestWrite : Prop :=
  ∀ (c : Config) (ws : List ((Nat × Nat) × Word)) (l sl : Nat), (∀ p ∈ ws, p.1.2 < 32) → sl < 32 →
    (ws.foldl (fun s p => s.setCell p.1.1 p.1.2 p.2) (State.create c)).cell l sl =
      ((ws.reverse.find? fun p => decide (p.1 = (l, sl))).map Prod.snd).getD 0

/-- The model's canonical form (log 3): two drums in canonical form that read the same everywhere are the same data. -/
def Obligations.EqualDrumsAreEqualData : Prop :=
  ∀ m n : Memory, m.wf = true → n.wf = true → (∀ a : Nat, m.read a = n.read a) → m = n

/-- 20_memory.md R57, 70_reset_and_hazards.md R236 (D13, D15; log 18): what `Poke` answers, case by case. -/
def Obligations.PokeWritesOneCellBeforeTheStart : Prop :=
  ∀ (s : State) (l sl : Nat) (v : Int),
    (s.started = true → poke s l sl v = .refused .pokeAfterStart) ∧
    (s.started = false → (s.cfg.nLines ≤ l ∨ s.cfg.nSlots ≤ sl) → poke s l sl v = .fault (.outOfRange l sl)) ∧
    (s.started = false → l < s.cfg.nLines → sl < s.cfg.nSlots → (v < 0 ∨ 2 ^ 24 - 1 < v) →
      poke s l sl v = .fault (.rangeError v)) ∧
    (s.started = false → l < s.cfg.nLines → sl < s.cfg.nSlots → 0 ≤ v → v ≤ 2 ^ 24 - 1 →
      poke s l sl v = .next (s.setCell l sl (BitVec.ofNat 24 v.toNat)))

/-- 70_reset_and_hazards.md R236: pokes to different locations commute. Where two pokes each succeed on a machine, both orders
succeed and end in one state; where they succeed one after the other, so they do in the other order, with the same end. To one
location the last wins: the second succeeds, and the end is that of the second alone. That the ends are equal as DATA rests on
the canonical form of the drum (log 3, DESIGN CHOICE), and so do the same two laws of cell writes, stated last. -/
def Obligations.PokesCommuteAndTheLastWins : Prop :=
  (∀ (s t t' : State) (l sl l' sl' : Nat) (v v' : Int), s.cfg.Valid → s.drum.wf = true → (l, sl) ≠ (l', sl') →
    poke s l sl v = .next t → poke s l' sl' v' = .next t' →
    ∃ u : State, poke t l' sl' v' = .next u ∧ poke t' l sl v = .next u) ∧
    (∀ (s t u : State) (l sl l' sl' : Nat) (v v' : Int), s.cfg.Valid → s.drum.wf = true → (l, sl) ≠ (l', sl') →
      poke s l sl v = .next t → poke t l' sl' v' = .next u →
      ∃ t' : State, poke s l' sl' v' = .next t' ∧ poke t' l sl v = .next u) ∧
    (∀ (s t t' : State) (l sl : Nat) (v v' : Int), s.drum.wf = true →
      poke s l sl v = .next t → poke s l sl v' = .next t' → poke t l sl v' = .next t') ∧
    (∀ (s : State) (l sl l' sl' : Nat) (v v' : Word), s.drum.wf = true → sl < 32 → sl' < 32 → (l, sl) ≠ (l', sl') →
      (s.setCell l sl v).setCell l' sl' v' = (s.setCell l' sl' v').setCell l sl v) ∧
    (∀ (s : State) (l sl : Nat) (v v' : Word), s.drum.wf = true →
      (s.setCell l sl v).setCell l sl v' = s.setCell l sl v')

/-! ## Fatal errors -/

/-- 60_exceptions.md R210 (D13, log 7; the refusal, log 8): a step that raises changes nothing but the fault status, and the
fault is terminal: no later tick changes anything, every later step is refused. -/
def Obligations.FaultingTickChangesOnlyTheFaultStatus : Prop :=
  ∀ (s : State) (e : Fault), step s = .fault e →
    tick s = { s with fault := some e } ∧
    ∀ k : Nat, ticks k (tick s) = tick s ∧ step (ticks k (tick s)) = .refused (.alreadyFaulted e)

/-- 60_exceptions.md R201, 42_alu_data.md R158 (D5, log 10): a step raises `RangeError` exactly when it executes an ADD or a SUB
whose exact result is outside the signed range, and reports that result. -/
def Obligations.RangeErrorExactlyOnOverflow : Prop :=
  ∀ (s : State) (x : Int), step s = .fault (.rangeError x) ↔
    s.ExecuteTick ∧ s.irFields.oline.toNat < s.cfg.nLines ∧ (x < -(2 ^ 23) ∨ 2 ^ 23 - 1 < x) ∧
    (s.irFields.op = Code.opAdd ∧ x = toSigned s.acc + toSigned (s.cell s.irFields.oline.toNat (drumStep s).cur) ∨
      s.irFields.op = Code.opSub ∧ x = toSigned s.acc - toSigned (s.cell s.irFields.oline.toNat (drumStep s).cur))

/-- 60_exceptions.md R202: the only places `OutOfRange` is raised: a fetch, an ALU-class execute (operand read or STORE's write),
and a poke; at the access, with the location; never with 32 lines; never by the I/O class. -/
def Obligations.OutOfRangeExactlyAtABadAccess : Prop :=
  (∀ (s : State) (l c : Nat), step s = .fault (.outOfRange l c) ↔
    c = (drumStep s).cur ∧ s.cfg.nLines ≤ l ∧
      (s.FetchTick ∧ l = s.fetchLine ∨ s.ExecuteTick ∧ s.irFields.isIo = false ∧ l = s.irFields.oline.toNat)) ∧
    (∀ (s : State) (l c : Nat), s.cfg.nLines = 32 → step s ≠ .fault (.outOfRange l c)) ∧
    (∀ (s : State) (l sl l' sl' : Nat) (v : Int), s.started = false →
      (poke s l sl v = .fault (.outOfRange l' sl') ↔ l' = l ∧ sl' = sl ∧ (s.cfg.nLines ≤ l ∨ s.cfg.nSlots ≤ sl)))

/-- 60_exceptions.md R205 (D8, log 9): `ReservedEncoding` is raised only under `RESERVED_POLICY = fault`, by the execute of an
opcode 10 to 15 or of OUT to a device 2 or above, with the latched word. -/
def Obligations.ReservedEncodingOnlyUnderTheFaultPolicy : Prop :=
  ∀ (s : State) (w : Word), step s = .fault (.reservedEncoding w) ↔
    s.ExecuteTick ∧ s.cfg.reserved = .fault ∧ w = s.ir ∧
      (10 ≤ s.irFields.op.toNat ∨ s.irFields.op = Code.opOut ∧ 2 ≤ s.irFields.dev.toNat)

/-! ## Results: every instruction completes, and what it leaves -/

/-- 42_alu_data.md R151: LOAD writes the operand to ACC and changes nothing else. -/
def Obligations.LoadCompletes : Prop :=
  ∀ (s : State) (os ol ns nl : Field5), ol.toNat < s.cfg.nLines →
    exec (.load os ol ns nl) s = .next { s with acc := s.cell ol.toNat s.cur }

/-- 42_alu_data.md R152, R158 (the range criterion is D5, log 10): ADD writes the exact signed sum to ACC when it is in range,
and changes nothing else; otherwise it is `RangeError` with the exact sum. -/
def Obligations.AddCompletesInRange : Prop :=
  ∀ (s : State) (os ol ns nl : Field5), ol.toNat < s.cfg.nLines →
    (-(2 ^ 23) ≤ toSigned s.acc + toSigned (s.cell ol.toNat s.cur) →
      toSigned s.acc + toSigned (s.cell ol.toNat s.cur) ≤ 2 ^ 23 - 1 →
      ∃ w : Word, toSigned w = toSigned s.acc + toSigned (s.cell ol.toNat s.cur) ∧
        exec (.add os ol ns nl) s = .next { s with acc := w }) ∧
    (toSigned s.acc + toSigned (s.cell ol.toNat s.cur) < -(2 ^ 23) ∨
      2 ^ 23 - 1 < toSigned s.acc + toSigned (s.cell ol.toNat s.cur) →
      exec (.add os ol ns nl) s = .fault (.rangeError (toSigned s.acc + toSigned (s.cell ol.toNat s.cur))))

/-- 42_alu_data.md R153, R158 (the range criterion is D5, log 10): SUB, with ACC the minuend. -/
def Obligations.SubCompletesInRange : Prop :=
  ∀ (s : State) (os ol ns nl : Field5), ol.toNat < s.cfg.nLines →
    (-(2 ^ 23) ≤ toSigned s.acc - toSigned (s.cell ol.toNat s.cur) →
      toSigned s.acc - toSigned (s.cell ol.toNat s.cur) ≤ 2 ^ 23 - 1 →
      ∃ w : Word, toSigned w = toSigned s.acc - toSigned (s.cell ol.toNat s.cur) ∧
        exec (.sub os ol ns nl) s = .next { s with acc := w }) ∧
    (toSigned s.acc - toSigned (s.cell ol.toNat s.cur) < -(2 ^ 23) ∨
      2 ^ 23 - 1 < toSigned s.acc - toSigned (s.cell ol.toNat s.cur) →
      exec (.sub os ol ns nl) s = .fault (.rangeError (toSigned s.acc - toSigned (s.cell ol.toNat s.cur))))

/-- 42_alu_data.md R154, R155: AND and XOR work bit by bit on ACC and the operand and change nothing else. -/
def Obligations.AndXorCompleteBitByBit : Prop :=
  ∀ (s : State) (os ol ns nl : Field5), ol.toNat < s.cfg.nLines →
    (∃ w : Word, exec (.and os ol ns nl) s = .next { s with acc := w } ∧
      ∀ i : Nat, w.getLsbD i = (s.acc.getLsbD i && (s.cell ol.toNat s.cur).getLsbD i)) ∧
    (∃ w : Word, exec (.xor os ol ns nl) s = .next { s with acc := w } ∧
      ∀ i : Nat, w.getLsbD i = xor (s.acc.getLsbD i) ((s.cell ol.toNat s.cur).getLsbD i))

/-- 42_alu_data.md R156: ROT rotates ACC left once for each set bit among the operand's scanned low bits, least significant
first; all 24 with the default parameters (D6, log 11). It changes nothing else. -/
def Obligations.RotCompletesAsTheScan : Prop :=
  (∀ (s : State) (os ol ns nl : Field5), s.cfg.Valid → ol.toNat < s.cfg.nLines →
    exec (.rot os ol ns nl) s =
      .next { s with acc := rotateScan s.acc (s.cell ol.toNat s.cur) s.cfg.rotBits }) ∧
    State.reset.cfg.rotBits = 24

/-- 42_alu_data.md R157: STORE completes, leaves ACC and every other element, writes ACC to the cell of its operand line under
the cursor, and leaves every other cell. -/
def Obligations.StoreCompletes : Prop :=
  ∀ (s : State) (os ol ns nl : Field5), s.drum.wf = true → s.cur < 32 → ol.toNat < s.cfg.nLines →
    ∃ t : State, exec (.store os ol ns nl) s = .next t ∧ t = { s with drum := t.drum } ∧
      t.cell ol.toNat s.cur = s.acc ∧
      ∀ l sl : Nat, sl < 32 → (l, sl) ≠ (ol.toNat, s.cur) → t.cell l sl = s.cell l sl

/-- 43_control.md R171 (that the operand is read is D7, log 12): BEQ sets BP when ACC is zero, else leaves it, and changes
nothing else. -/
def Obligations.BeqCompletes : Prop :=
  ∀ (s : State) (os ol ns nl : Field5), ol.toNat < s.cfg.nLines →
    exec (.beq os ol ns nl) s = .next { s with bp := if s.acc = 0 then true else s.bp }

/-- 44_io.md R182, R183, R184: IN has no effect and no error, for every device and every operand line; OUT HALT sets HALT and
changes nothing else; OUT TRANSMIT appends the 24-bit ACC to TX (the word, not its text: D10, log 13) and changes nothing else. -/
def Obligations.InAndOutComplete : Prop :=
  (∀ (s : State) (dev ol ns nl : Field5), exec (.inp dev ol ns nl) s = .next s) ∧
    (∀ (s : State) (ol ns nl : Field5), exec (.outHalt ol ns nl) s = .next { s with halt := true }) ∧
    (∀ (s : State) (ol ns nl : Field5), exec (.outTransmit ol ns nl) s = .next { s with tx := s.tx ++ [s.acc] })

/-- 44_io.md R185 to R188 (D8, D9; log 9): the eleven reserved rows, OUT BRANCH, OUT to devices 3 to 31 and opcodes 10 to 15,
complete with no effect under `RESERVED_POLICY = noop` and raise `ReservedEncoding` of the latched word under `fault`. -/
def Obligations.ReservedRowsCompleteUnderNoop : Prop :=
  ∀ (s : State) (a b c d : Field5),
    ∀ i ∈ [Instr.outBranch b c d, .outDev3 b c d, .outDev4to7 a b c d, .outDev8to15 a b c d, .outDev16to31 a b c d,
      .reserved10 a b c d, .reserved11 a b c d, .reserved12 a b c d, .reserved13 a b c d, .reserved14 a b c d,
      .reserved15 a b c d],
    (s.cfg.reserved = .noop → exec i s = .next s) ∧
    (s.cfg.reserved = .fault → exec i s = .fault (.reservedEncoding s.ir))

/-! ## Frames -/

/-- 42_alu_data.md R150 to R156, R159: LOAD, ADD, SUB, AND, XOR and ROT may change ACC; every other element, every flag and every
cell of the drum is as before. They store nothing, so every address reads as before. -/
def Obligations.AccumulatorInstructionsFrame : Prop :=
  ∀ (i : Instr) (s t : State), writesAcc i = true → exec i s = .next t →
    t.ir = s.ir ∧ t.await = s.await ∧ t.bp = s.bp ∧ t.halt = s.halt ∧ t.tx = s.tx ∧ t.cur = s.cur ∧ t.rev = s.rev ∧
    t.fault = s.fault ∧ t.cfg = s.cfg ∧ ∀ a : Nat, t.drum.read a = s.drum.read a

/-- 42_alu_data.md R157, R159: STORE changes no register and no flag; the address stored to is the key of the operand line under
the cursor, and every other address reads as before. -/
def Obligations.StoreFrame : Prop :=
  ∀ (s t : State) (os ol ns nl : Field5), s.drum.wf = true → exec (.store os ol ns nl) s = .next t →
    t.acc = s.acc ∧ t.ir = s.ir ∧ t.await = s.await ∧ t.bp = s.bp ∧ t.halt = s.halt ∧ t.tx = s.tx ∧ t.cur = s.cur ∧
    t.rev = s.rev ∧ t.fault = s.fault ∧ t.cfg = s.cfg ∧
    ∀ a : Nat, a = cellKey ol.toNat s.cur → ∀ b : Nat, b ≠ a → t.drum.read b = s.drum.read b

/-- 43_control.md R171, 44_io.md R180, R182 to R187: BEQ and the I/O class leave ACC, the latch, the cursor, every cell and the
phase flag; BEQ may change only BP, OUT HALT only HALT, OUT TRANSMIT only TX, IN and the reserved rows nothing
(that OUT BRANCH and the reserved rows write nothing is D8, D9, log 9). -/
def Obligations.BranchAndIoFrame : Prop :=
  ∀ (i : Instr) (s t : State), writesAcc i = false → (∀ os ol ns nl, i ≠ .store os ol ns nl) → exec i s = .next t →
    t.acc = s.acc ∧ t.ir = s.ir ∧ t.await = s.await ∧ t.cur = s.cur ∧ t.rev = s.rev ∧ t.fault = s.fault ∧ t.cfg = s.cfg ∧
    (∀ a : Nat, t.drum.read a = s.drum.read a) ∧
    ((∀ os ol ns nl, i ≠ .beq os ol ns nl) → t.bp = s.bp) ∧
    ((∀ ol ns nl, i ≠ .outHalt ol ns nl) → t.halt = s.halt) ∧
    ((∀ ol ns nl, i ≠ .outTransmit ol ns nl) → t.tx = s.tx)

/-! ## The step -/

/-- 41_engine_cycle.md R131, R134 (alignment as D19, D20, log 15): in an execute tick the step is `exec` of the decoded latch on
the rotated state, with AWAIT cleared and `completed` true; its fault is the step's. -/
def Obligations.StepRunsTheDecodedInstruction : Prop :=
  ∀ (s : State) (i : Instr), s.ExecuteTick → decode s.ir = i →
    (∀ t : State, exec i (drumStep s) = .next t →
      stepOut s = .next ⟨{ t with await := false }, true⟩ ∧ step s = .next { t with await := false }) ∧
    (∀ e : Fault, exec i (drumStep s) = .fault e → step s = .fault e)

/-- 41_engine_cycle.md R133 (the reduction is D19, log 15): in a fetch tick whose line exists the step latches the word under the
cursor on the next-instruction line, clears BP, sets AWAIT, completes no cycle and changes nothing else. -/
def Obligations.FetchLatchesTheWordUnderTheCursor : Prop :=
  ∀ s : State, s.FetchTick → s.fetchLine < s.cfg.nLines →
    stepOut s = .next
      ⟨{ drumStep s with ir := s.cell s.fetchLine (drumStep s).cur, bp := false, await := true }, false⟩ ∧
    (drumStep s).cur = (s.irFields.nslot.toNat + if s.bp = true then 1 else 0) % s.cfg.nSlots

/-- 41_engine_cycle.md R132: a halted machine's step performs `DrumStep` and nothing else, completes no cycle, and accesses no
cell. -/
def Obligations.HaltedTickOnlyRotates : Prop :=
  ∀ s : State, s.HaltedTick → tickAccess s = none ∧
    stepOut s = .next
      ⟨{ s with cur := (s.cur + 1) % s.cfg.nSlots, rev := s.rev + if (s.cur + 1) % s.cfg.nSlots = 0 then 1 else 0 }, false⟩

/-- 41_engine_cycle.md R135: an idle tick changes CUR, and REV on a wrap, and nothing else, performs no memory operation and
reports no cycle completed. -/
def Obligations.IdleTickOnlyRotates : Prop :=
  ∀ s : State, s.IdleTick → tickAccess s = none ∧
    stepOut s = .next
      ⟨{ s with cur := (s.cur + 1) % s.cfg.nSlots, rev := s.rev + if (s.cur + 1) % s.cfg.nSlots = 0 then 1 else 0 }, false⟩

/-- 41_engine_cycle.md R136: a tick that goes on is exactly one of a halted rotation, an idle rotation, a fetch or an execute;
`completed` is true exactly for an execute; the drum turns exactly once; the instruction a tick fetches is not executed in it but at the earliest in the next. -/
def Obligations.OneActionPerTick : Prop :=
  ∀ (s : State) (o : StepOut), stepOut s = .next o →
    (s.HaltedTick ∨ s.IdleTick ∨ s.FetchTick ∨ s.ExecuteTick) ∧
    ¬(s.HaltedTick ∧ s.IdleTick) ∧ ¬(s.HaltedTick ∧ s.FetchTick) ∧ ¬(s.HaltedTick ∧ s.ExecuteTick) ∧
    ¬(s.IdleTick ∧ s.FetchTick) ∧ ¬(s.IdleTick ∧ s.ExecuteTick) ∧ ¬(s.FetchTick ∧ s.ExecuteTick) ∧
    (o.completed = true ↔ s.ExecuteTick) ∧
    o.state.cur = (s.cur + 1) % s.cfg.nSlots ∧ o.state.rev = s.rev + (if (s.cur + 1) % s.cfg.nSlots = 0 then 1 else 0) ∧
    (s.FetchTick → o.state.await = true ∧ o.state.acc = s.acc ∧ o.state.drum = s.drum ∧ o.state.tx = s.tx ∧
      o.state.halt = s.halt)

/-- 20_memory.md R58: the at most one access of a tick is a read of `(IR.nline, CUR)` by a fetch, a read of `(IR.oline, CUR)` by
LOAD to BEQ, or a write of `(IR.oline, CUR)` by STORE; idle, halted and I/O-class ticks access nothing; and a cell changes only
when it is the one written. -/
def Obligations.AtMostOneAccessPerTick : Prop :=
  ∀ s t : State, step s = .next t →
    (s.FetchTick → tickAccess s = some (.read s.fetchLine (drumStep s).cur)) ∧
    (s.ExecuteTick → s.irFields.op.toNat ≤ 6 → tickAccess s = some (.read s.irFields.oline.toNat (drumStep s).cur)) ∧
    (s.ExecuteTick → s.irFields.op = Code.opStore →
      tickAccess s = some (.write s.irFields.oline.toNat (drumStep s).cur)) ∧
    (s.ExecuteTick → s.irFields.isIo = true → tickAccess s = none) ∧
    (s.IdleTick ∨ s.HaltedTick → tickAccess s = none) ∧
    (s.drum.wf = true → s.cfg.Valid → ∀ l sl : Nat, sl < 32 → t.cell l sl ≠ s.cell l sl →
      tickAccess s = some (.write l sl))

/-- The host's placing (log 17): after `withFetchWord` the very next step is the execute of exactly the placed word, on the
rotated state, for every word whose operand slot exists (others never align: D19, log 15). -/
def Obligations.PlacedWordRunsInTheNextStep : Prop :=
  ∀ (s : State) (w : Word), s.cfg.Valid →
    ((decodeFields w).isIo = true ∨ (decodeFields w).oslot.toNat < s.cfg.nSlots) →
    (s.withFetchWord 24 w.toNat).ir = w ∧ (s.withFetchWord 24 w.toNat).ExecuteTick ∧
    ((decodeFields w).isIo = false → (drumStep (s.withFetchWord 24 w.toNat)).cur = (decodeFields w).oslot.toNat) ∧
    ∀ t : State, exec (decode w) (drumStep (s.withFetchWord 24 w.toNat)) = .next t →
      step (s.withFetchWord 24 w.toNat) = .next { t with await := false }

/-! ## Invariants and whole-machine rules -/

/-- 10_state.md R33, 70_reset_and_hazards.md R231, R232 (cells, CUR and REV are D14, logs 4 and 5; the geometry is D1, log 2): every
element at reset, and the entry point `0:0`. -/
def Obligations.ResetLeavesEverythingZero : Prop :=
  (∀ c : Config, (State.create c).acc = 0 ∧ (State.create c).ir = 0 ∧ (State.create c).await = false ∧
    (State.create c).bp = false ∧ (State.create c).halt = false ∧ (State.create c).tx = [] ∧ (State.create c).cur = 0 ∧
    (State.create c).rev = 0 ∧ (State.create c).fault = none ∧ (State.create c).pc = (0, 0) ∧
    ∀ l sl : Nat, (State.create c).cell l sl = 0) ∧
    State.reset = State.create ⟨32, 32, .noop, 24⟩

/-- 10_state.md R35 (derived there; the canonical form is log 3): the invariant holds of the machine as created with any
admissible parameters, reset among them. -/
def Obligations.CreatedMachineMeetsTheInvariant : Prop :=
  (∀ c : Config, c.Valid → (State.create c).Inv) ∧ State.reset.Inv

/-- 10_state.md R35 (derived there; the canonical form is log 3): from EVERY state that meets the invariant, a step gives one that
does, and so does a tick that ends in a fatal error. -/
def Obligations.EveryStepKeepsTheInvariant : Prop :=
  (∀ s t : State, s.Inv → step s = .next t → t.Inv) ∧ (∀ s : State, s.Inv → (tick s).Inv)

/-- 20_memory.md R57, 10_state.md R35 (derived there; the canonical form is log 3): a poke that succeeds keeps the invariant and changes no element but the drum. -/
def Obligations.PokeKeepsTheInvariant : Prop :=
  ∀ (s t : State) (l sl : Nat) (v : Int), s.Inv → poke s l sl v = .next t → t.Inv ∧ t = { s with drum := t.drum }

/-- 10_state.md R20, R31 (table column "written by"): what a step changed tells what it executed. -/
def Obligations.EachElementHasItsWriters : Prop :=
  ∀ s t : State, step s = .next t →
    (t.acc ≠ s.acc → s.ExecuteTick ∧ writesAcc (decode s.ir) = true) ∧
    (t.ir ≠ s.ir → s.FetchTick) ∧
    (t.await ≠ s.await → s.FetchTick ∧ t.await = true ∨ s.ExecuteTick ∧ t.await = false) ∧
    (t.tx ≠ s.tx → s.ExecuteTick ∧ t.tx = s.tx ++ [s.acc] ∧ ∃ ol ns nl, decode s.ir = .outTransmit ol ns nl) ∧
    (t.drum ≠ s.drum → s.ExecuteTick ∧ ∃ os ol ns nl, decode s.ir = .store os ol ns nl) ∧
    t.fault = none ∧ t.cfg = s.cfg

/-- 10_state.md R26: BP is set by a BEQ that finds ACC zero, cleared by every fetch, left by everything else, and false at reset;
no other instruction writes it, OUT BRANCH included (D9, log 9). -/
def Obligations.BranchPendingIsSetOnlyByBeq : Prop :=
  (∀ s t : State, step s = .next t → (s.FetchTick → t.bp = false) ∧
    (s.ExecuteTick → s.irFields.op = Code.opBeq → s.acc = 0 → t.bp = true) ∧
    (¬s.FetchTick → ¬(s.ExecuteTick ∧ s.irFields.op = Code.opBeq ∧ s.acc = 0) → t.bp = s.bp)) ∧
    (∀ c : Config, (State.create c).bp = false)

/-- 10_state.md R27: HALT is set by the execute of OUT HALT and by nothing else, is never cleared, and is false at reset; while it
is set a step advances the drum and does nothing else. -/
def Obligations.HaltIsSetOnlyByOutHaltAndNeverCleared : Prop :=
  (∀ s t : State, step s = .next t →
    (t.halt = true ↔ s.halt = true ∨ s.ExecuteTick ∧ ∃ ol ns nl, decode s.ir = .outHalt ol ns nl)) ∧
    (∀ s : State, s.Alive → s.halt = true → step s = .next (drumStep s)) ∧
    (∀ c : Config, (State.create c).halt = false)

/-- 10_state.md R30, 44_io.md R184: no rule of the machine reads REV or TX. Two machines that differ only in them step alike: same
outcome, and on a next state they agree on every other element. -/
def Obligations.NoStepReadsRevOrTx : Prop :=
  ∀ (s : State) (r : Nat) (x : List Word),
    (∀ t : State, step s = .next t →
      ∃ t' : State, step { s with rev := r, tx := x } = .next t' ∧ t' = { t with rev := t'.rev, tx := t'.tx }) ∧
    (∀ e : Fault, step s = .fault e → step { s with rev := r, tx := x } = .fault e)

/-! ## Timing -/

/-- 20_memory.md R71, 41_engine_cycle.md R138 (the spec's derivations; D19, log 15): a machine waiting to fetch idles until its
fetch slot comes round, and exactly then latches the word of the fetch location. The wait is 1 to `N_SLOTS` ticks. -/
def Obligations.FetchHappensExactlyWhenItsSlotComesRound : Prop :=
  ∀ s : State, s.cfg.Valid → s.cur < s.cfg.nSlots → s.Alive → s.halt = false → s.await = false →
    s.fetchLine < s.cfg.nLines →
    1 ≤ s.ticksUntil s.fetchSlot ∧ s.ticksUntil s.fetchSlot ≤ s.cfg.nSlots ∧
    (∀ j : Nat, j < s.ticksUntil s.fetchSlot → ticks j s = s.turned j) ∧
    ticks (s.ticksUntil s.fetchSlot) s = latch (s.turned (s.ticksUntil s.fetchSlot)) (s.cell s.fetchLine s.fetchSlot) ∧
    (s.turned (s.ticksUntil s.fetchSlot)).cur = s.fetchSlot

/-- 41_engine_cycle.md R138 (the spec's derivation; D19, D20, log 15): a machine waiting to execute an ALU-class instruction whose
operand slot exists idles until that slot comes round and executes exactly then; an I/O-class instruction executes in the next
tick. -/
def Obligations.ExecuteHappensExactlyWhenItsSlotComesRound : Prop :=
  ∀ s : State, s.cfg.Valid → s.cur < s.cfg.nSlots → s.Alive → s.halt = false → s.await = true →
    (s.irFields.isIo = true → s.ExecuteTick) ∧
    (s.irFields.isIo = false → s.irFields.oslot.toNat < s.cfg.nSlots →
      (∀ j : Nat, j < s.ticksUntil s.irFields.oslot.toNat → ticks j s = s.turned j) ∧
      (∀ j : Nat, j + 1 < s.ticksUntil s.irFields.oslot.toNat → (s.turned j).IdleTick) ∧
      (s.turned (s.ticksUntil s.irFields.oslot.toNat - 1)).ExecuteTick ∧
      (drumStep (s.turned (s.ticksUntil s.irFields.oslot.toNat - 1))).cur = s.irFields.oslot.toNat)

/-- 41_engine_cycle.md R138, 70_reset_and_hazards.md R250 (the spec's derivations; D19, D20, log 15): from any state waiting to
fetch, if the word it will fetch has an operand slot that exists, a cycle completes or a fatal error is raised within two revolutions. -/
def Obligations.CycleEndsWithinTwoRevolutions : Prop :=
  ∀ s : State, s.cfg.Valid → s.cur < s.cfg.nSlots → s.Alive → s.halt = false → s.await = false →
    ((decodeFields (s.cell s.fetchLine s.fetchSlot)).isIo = true ∨
      (decodeFields (s.cell s.fetchLine s.fetchSlot)).oslot.toNat < s.cfg.nSlots) →
    ∃ k : Nat, k < 2 * s.cfg.nSlots ∧
      ((∃ t : State, stepOut (ticks k s) = .next ⟨t, true⟩) ∨ ∃ e : Fault, stepOut (ticks k s) = .fault e)

/-- 70_reset_and_hazards.md R232 (the spec's derivation; that the cursor starts at 0 is D14, log 5): whatever is loaded, a fresh machine idles for `N_SLOTS - 1` ticks and at
tick `N_SLOTS` latches the word of location `0:0`. -/
def Obligations.FirstFetchIsFromZeroAtTickNSlots : Prop :=
  ∀ (c : Config) (m : Memory), c.Valid →
    (∀ k : Nat, k < c.nSlots → ticks k { State.create c with drum := m } = { State.create c with drum := m, cur := k }) ∧
    ticks c.nSlots { State.create c with drum := m } =
      { State.create c with drum := m, rev := 1, ir := m.read (cellKey 0 0), await := true }

/-- 43_control.md R171 (that the operand is read is D7, log 12; the reduction D19, log 15): a BEQ is a two-way branch: the fetch after its execute is of
`nline : (nslot + 1) mod N_SLOTS` when ACC is zero and of `nline : nslot mod N_SLOTS` when it is not. -/
def Obligations.BeqChoosesBetweenAdjacentCells : Prop :=
  ∀ s t : State, s.ExecuteTick → s.irFields.op = Code.opBeq → s.bp = false → step s = .next t →
    (s.acc = 0 → t.pc = (s.irFields.nline.toNat, (s.irFields.nslot.toNat + 1) % s.cfg.nSlots)) ∧
    (s.acc ≠ 0 → t.pc = (s.irFields.nline.toNat, s.irFields.nslot.toNat % s.cfg.nSlots))

/-- 60_exceptions.md R221: HALT is absorbing: however long a halted machine is ticked, the drum turns and everything else
survives unchanged. -/
def Obligations.HaltedMachineOnlyTurnsForEver : Prop :=
  ∀ (s : State) (k : Nat), s.cur < s.cfg.nSlots → s.HaltedTick → ticks k s = s.turned k ∧ (ticks k s).HaltedTick

/-- 70_reset_and_hazards.md R245 (D19, log 15): an ALU-class instruction whose operand slot does not exist never aligns: the machine
idles for ever, raises nothing and completes nothing. -/
def Obligations.MissingOperandSlotHangs : Prop :=
  ∀ (s : State) (k : Nat), s.cur < s.cfg.nSlots → s.Alive → s.halt = false → s.await = true → s.irFields.isIo = false →
    s.cfg.nSlots ≤ s.irFields.oslot.toNat → ticks k s = s.turned k ∧ (ticks k s).IdleTick
end

