-- ==== Sys2Proof/Laws/State.lean ====
section
/-! SUPPORT. One lemma per field per update of State, so that no later proof unfolds a record update. -/

namespace Sys2Proof.Machine

/-! ### setCell -/

@[simp] theorem setCell_acc (s : State) (l sl : Nat) (v : Word) : (s.setCell l sl v).acc = s.acc := rfl
@[simp] theorem setCell_ir (s : State) (l sl : Nat) (v : Word) : (s.setCell l sl v).ir = s.ir := rfl
@[simp] theorem setCell_await (s : State) (l sl : Nat) (v : Word) : (s.setCell l sl v).await = s.await := rfl
@[simp] theorem setCell_bp (s : State) (l sl : Nat) (v : Word) : (s.setCell l sl v).bp = s.bp := rfl
@[simp] theorem setCell_halt (s : State) (l sl : Nat) (v : Word) : (s.setCell l sl v).halt = s.halt := rfl
@[simp] theorem setCell_tx (s : State) (l sl : Nat) (v : Word) : (s.setCell l sl v).tx = s.tx := rfl
@[simp] theorem setCell_cur (s : State) (l sl : Nat) (v : Word) : (s.setCell l sl v).cur = s.cur := rfl
@[simp] theorem setCell_rev (s : State) (l sl : Nat) (v : Word) : (s.setCell l sl v).rev = s.rev := rfl
@[simp] theorem setCell_drum (s : State) (l sl : Nat) (v : Word) : (s.setCell l sl v).drum = s.drum.write (cellKey l sl) v := rfl
@[simp] theorem setCell_fault (s : State) (l sl : Nat) (v : Word) : (s.setCell l sl v).fault = s.fault := rfl
@[simp] theorem setCell_cfg (s : State) (l sl : Nat) (v : Word) : (s.setCell l sl v).cfg = s.cfg := rfl

/-! ### recordFault -/

@[simp] theorem recordFault_acc (s : State) (e : Fault) : (s.recordFault e).acc = s.acc := rfl
@[simp] theorem recordFault_ir (s : State) (e : Fault) : (s.recordFault e).ir = s.ir := rfl
@[simp] theorem recordFault_await (s : State) (e : Fault) : (s.recordFault e).await = s.await := rfl
@[simp] theorem recordFault_bp (s : State) (e : Fault) : (s.recordFault e).bp = s.bp := rfl
@[simp] theorem recordFault_halt (s : State) (e : Fault) : (s.recordFault e).halt = s.halt := rfl
@[simp] theorem recordFault_tx (s : State) (e : Fault) : (s.recordFault e).tx = s.tx := rfl
@[simp] theorem recordFault_cur (s : State) (e : Fault) : (s.recordFault e).cur = s.cur := rfl
@[simp] theorem recordFault_rev (s : State) (e : Fault) : (s.recordFault e).rev = s.rev := rfl
@[simp] theorem recordFault_drum (s : State) (e : Fault) : (s.recordFault e).drum = s.drum := rfl
@[simp] theorem recordFault_fault (s : State) (e : Fault) : (s.recordFault e).fault = some e := rfl
@[simp] theorem recordFault_cfg (s : State) (e : Fault) : (s.recordFault e).cfg = s.cfg := rfl

/-! ### drumStep -/

@[simp] theorem drumStep_acc (s : State) : (drumStep s).acc = s.acc := rfl
@[simp] theorem drumStep_ir (s : State) : (drumStep s).ir = s.ir := rfl
@[simp] theorem drumStep_await (s : State) : (drumStep s).await = s.await := rfl
@[simp] theorem drumStep_bp (s : State) : (drumStep s).bp = s.bp := rfl
@[simp] theorem drumStep_halt (s : State) : (drumStep s).halt = s.halt := rfl
@[simp] theorem drumStep_tx (s : State) : (drumStep s).tx = s.tx := rfl
@[simp] theorem drumStep_cur (s : State) : (drumStep s).cur = (s.cur + 1) % s.cfg.nSlots := rfl
@[simp] theorem drumStep_rev (s : State) : (drumStep s).rev = if (s.cur + 1) % s.cfg.nSlots = 0 then s.rev + 1 else s.rev := rfl
@[simp] theorem drumStep_drum (s : State) : (drumStep s).drum = s.drum := rfl
@[simp] theorem drumStep_fault (s : State) : (drumStep s).fault = s.fault := rfl
@[simp] theorem drumStep_cfg (s : State) : (drumStep s).cfg = s.cfg := rfl

/-! ### setHalt -/

@[simp] theorem setHalt_acc (s : State) : (setHalt s).acc = s.acc := rfl
@[simp] theorem setHalt_ir (s : State) : (setHalt s).ir = s.ir := rfl
@[simp] theorem setHalt_await (s : State) : (setHalt s).await = s.await := rfl
@[simp] theorem setHalt_bp (s : State) : (setHalt s).bp = s.bp := rfl
@[simp] theorem setHalt_halt (s : State) : (setHalt s).halt = true := rfl
@[simp] theorem setHalt_tx (s : State) : (setHalt s).tx = s.tx := rfl
@[simp] theorem setHalt_cur (s : State) : (setHalt s).cur = s.cur := rfl
@[simp] theorem setHalt_rev (s : State) : (setHalt s).rev = s.rev := rfl
@[simp] theorem setHalt_drum (s : State) : (setHalt s).drum = s.drum := rfl
@[simp] theorem setHalt_fault (s : State) : (setHalt s).fault = s.fault := rfl
@[simp] theorem setHalt_cfg (s : State) : (setHalt s).cfg = s.cfg := rfl

/-! ### latch -/

@[simp] theorem latch_acc (s : State) (w : Word) : (latch s w).acc = s.acc := rfl
@[simp] theorem latch_ir (s : State) (w : Word) : (latch s w).ir = w := rfl
@[simp] theorem latch_await (s : State) (w : Word) : (latch s w).await = true := rfl
@[simp] theorem latch_bp (s : State) (w : Word) : (latch s w).bp = false := rfl
@[simp] theorem latch_halt (s : State) (w : Word) : (latch s w).halt = s.halt := rfl
@[simp] theorem latch_tx (s : State) (w : Word) : (latch s w).tx = s.tx := rfl
@[simp] theorem latch_cur (s : State) (w : Word) : (latch s w).cur = s.cur := rfl
@[simp] theorem latch_rev (s : State) (w : Word) : (latch s w).rev = s.rev := rfl
@[simp] theorem latch_drum (s : State) (w : Word) : (latch s w).drum = s.drum := rfl
@[simp] theorem latch_fault (s : State) (w : Word) : (latch s w).fault = s.fault := rfl
@[simp] theorem latch_cfg (s : State) (w : Word) : (latch s w).cfg = s.cfg := rfl

/-! ### endExecute -/

@[simp] theorem endExecute_acc (s : State) : (endExecute s).acc = s.acc := rfl
@[simp] theorem endExecute_ir (s : State) : (endExecute s).ir = s.ir := rfl
@[simp] theorem endExecute_await (s : State) : (endExecute s).await = false := rfl
@[simp] theorem endExecute_bp (s : State) : (endExecute s).bp = s.bp := rfl
@[simp] theorem endExecute_halt (s : State) : (endExecute s).halt = s.halt := rfl
@[simp] theorem endExecute_tx (s : State) : (endExecute s).tx = s.tx := rfl
@[simp] theorem endExecute_cur (s : State) : (endExecute s).cur = s.cur := rfl
@[simp] theorem endExecute_rev (s : State) : (endExecute s).rev = s.rev := rfl
@[simp] theorem endExecute_drum (s : State) : (endExecute s).drum = s.drum := rfl
@[simp] theorem endExecute_fault (s : State) : (endExecute s).fault = s.fault := rfl
@[simp] theorem endExecute_cfg (s : State) : (endExecute s).cfg = s.cfg := rfl

/-! ### create -/

@[simp] theorem create_acc (c : Config) : (State.create c).acc = 0 := rfl
@[simp] theorem create_ir (c : Config) : (State.create c).ir = 0 := rfl
@[simp] theorem create_await (c : Config) : (State.create c).await = false := rfl
@[simp] theorem create_bp (c : Config) : (State.create c).bp = false := rfl
@[simp] theorem create_halt (c : Config) : (State.create c).halt = false := rfl
@[simp] theorem create_tx (c : Config) : (State.create c).tx = [] := rfl
@[simp] theorem create_cur (c : Config) : (State.create c).cur = 0 := rfl
@[simp] theorem create_rev (c : Config) : (State.create c).rev = 0 := rfl
@[simp] theorem create_drum (c : Config) : (State.create c).drum = [] := rfl
@[simp] theorem create_fault (c : Config) : (State.create c).fault = none := rfl
@[simp] theorem create_cfg (c : Config) : (State.create c).cfg = c := rfl

/-! ### branchIfZero -/

theorem branchIfZero_of_zero {s : State} (h : s.acc = 0) : branchIfZero s = { s with bp := true } := if_pos h
theorem branchIfZero_of_ne {s : State} (h : s.acc ≠ 0) : branchIfZero s = s := if_neg h
@[simp] theorem branchIfZero_acc (s : State) : (branchIfZero s).acc = s.acc := by
  unfold branchIfZero; split <;> rfl
@[simp] theorem branchIfZero_ir (s : State) : (branchIfZero s).ir = s.ir := by
  unfold branchIfZero; split <;> rfl
@[simp] theorem branchIfZero_await (s : State) : (branchIfZero s).await = s.await := by
  unfold branchIfZero; split <;> rfl
@[simp] theorem branchIfZero_bp (s : State) : (branchIfZero s).bp = (s.bp || decide (s.acc = 0)) := by
  unfold branchIfZero; split <;> simp_all
@[simp] theorem branchIfZero_halt (s : State) : (branchIfZero s).halt = s.halt := by
  unfold branchIfZero; split <;> rfl
@[simp] theorem branchIfZero_tx (s : State) : (branchIfZero s).tx = s.tx := by
  unfold branchIfZero; split <;> rfl
@[simp] theorem branchIfZero_cur (s : State) : (branchIfZero s).cur = s.cur := by
  unfold branchIfZero; split <;> rfl
@[simp] theorem branchIfZero_rev (s : State) : (branchIfZero s).rev = s.rev := by
  unfold branchIfZero; split <;> rfl
@[simp] theorem branchIfZero_drum (s : State) : (branchIfZero s).drum = s.drum := by
  unfold branchIfZero; split <;> rfl
@[simp] theorem branchIfZero_fault (s : State) : (branchIfZero s).fault = s.fault := by
  unfold branchIfZero; split <;> rfl
@[simp] theorem branchIfZero_cfg (s : State) : (branchIfZero s).cfg = s.cfg := by
  unfold branchIfZero; split <;> rfl

/-! ### Derived readings: what they depend on -/

@[simp] theorem drumStep_irFields (s : State) : (drumStep s).irFields = s.irFields := rfl
@[simp] theorem drumStep_fetchSlot (s : State) : (drumStep s).fetchSlot = s.fetchSlot := rfl
@[simp] theorem drumStep_fetchLine (s : State) : (drumStep s).fetchLine = s.fetchLine := rfl
@[simp] theorem drumStep_cell (s : State) (l sl : Nat) : (drumStep s).cell l sl = s.cell l sl := rfl
@[simp] theorem latch_cell (s : State) (w : Word) (l sl : Nat) : (latch s w).cell l sl = s.cell l sl := rfl
@[simp] theorem latch_irFields (s : State) (w : Word) : (latch s w).irFields = decodeFields w := rfl
@[simp] theorem endExecute_cell (s : State) (l sl : Nat) : (endExecute s).cell l sl = s.cell l sl := rfl
@[simp] theorem endExecute_irFields (s : State) : (endExecute s).irFields = s.irFields := rfl

end Sys2Proof.Machine
end

