-- ==== Sys2Proof/Laws/Codec.lean ====
section
/-! SUPPORT. The codecs in plain arithmetic: the fields of a word, the word of fields, the signed reading. -/

namespace Sys2Proof

theorem bits_eq (w : Word) (hi lo : Nat) : bits w hi lo = w.toNat / 2 ^ lo % 2 ^ (hi - lo + 1) := by
  unfold bits; rw [Nat.shiftRight_eq_div_pow]

@[simp] theorem decodeFields_op (w : Word) : (decodeFields w).op.toNat = w.toNat / 1048576 % 16 := by
  simp [decodeFields, bits_eq, Layout.opLo]

@[simp] theorem decodeFields_oslot (w : Word) : (decodeFields w).oslot.toNat = w.toNat / 32768 % 32 := by
  simp [decodeFields, bits_eq, Layout.oslotLo]

@[simp] theorem decodeFields_oline (w : Word) : (decodeFields w).oline.toNat = w.toNat / 1024 % 32 := by
  simp [decodeFields, bits_eq, Layout.olineLo]

@[simp] theorem decodeFields_nslot (w : Word) : (decodeFields w).nslot.toNat = w.toNat / 32 % 32 := by
  simp [decodeFields, bits_eq, Layout.nslotLo]

@[simp] theorem decodeFields_nline (w : Word) : (decodeFields w).nline.toNat = w.toNat % 32 := by
  simp [decodeFields, bits_eq, Layout.nlineLo]

/-- The word of five naturals as one sum. -/
theorem encodeFields_toNat (op os ol ns nl : Nat) :
    (encodeFields op os ol ns nl).toNat =
      op % 16 * 1048576 + os % 32 * 32768 + ol % 32 * 1024 + ns % 32 * 32 + nl % 32 := by
  simp only [encodeFields, Layout.opLo, Layout.oslotLo, Layout.olineLo, Layout.nslotLo, Layout.nlineLo, BitVec.toNat_ofNat]
  omega

/-- The word of a tuple of fields as one sum. -/
theorem Fields.word_toNat (f : Fields) :
    f.word.toNat = f.op.toNat * 1048576 + f.oslot.toNat * 32768 + f.oline.toNat * 1024 + f.nslot.toNat * 32
      + f.nline.toNat := by
  have := f.op.isLt; have := f.oslot.isLt; have := f.oline.isLt; have := f.nslot.isLt; have := f.nline.isLt
  rw [Fields.word, encodeFields_toNat]
  omega

/-- `op[3]` is set exactly for the codes 8 to 15. -/
theorem Fields.isIo_iff (f : Fields) : f.isIo = true ↔ 8 ≤ f.op.toNat := by
  have h : ∀ op : Field4, op.getLsbD 3 = true ↔ 8 ≤ op.toNat := by decide
  exact h f.op

/-- The bits of a word from `lo` up, for a `lo` in the operand-slot field: opcode and high device bits. -/
theorem bits_word_from (f : Fields) (k : Nat) (hk : k ≤ 5) :
    bits f.word 23 (15 + k) = (f.op.toNat * 32 + f.oslot.toNat) / 2 ^ k := by
  have := f.op.isLt; have := f.oslot.isLt; have := f.oline.isLt; have := f.nslot.isLt; have := f.nline.isLt
  rw [bits_eq, Fields.word_toNat]
  interval_cases k <;> simp only [Nat.reduceAdd, Nat.reduceSub, Nat.reducePow] <;> omega

/-- The operation field of a tuple's word. -/
theorem bits_word_op (f : Fields) : bits f.word 23 20 = f.op.toNat := by
  have := f.oslot.isLt
  rw [show 20 = 15 + 5 from rfl, bits_word_from f 5 (by omega)]
  omega

/-- The operation and device fields of a tuple's word, together. -/
theorem bits_word_dev (f : Fields) : bits f.word 23 15 = f.op.toNat * 32 + f.oslot.toNat :=
  (bits_word_from f 0 (by omega)).trans (by simp)

theorem Fields.eq_of_toNat {f g : Fields} (h1 : f.op.toNat = g.op.toNat) (h2 : f.oslot.toNat = g.oslot.toNat)
    (h3 : f.oline.toNat = g.oline.toNat) (h4 : f.nslot.toNat = g.nslot.toNat) (h5 : f.nline.toNat = g.nline.toNat) :
    f = g := by
  cases f; cases g
  simp only [Fields.mk.injEq]
  exact ⟨BitVec.eq_of_toNat_eq h1, BitVec.eq_of_toNat_eq h2, BitVec.eq_of_toNat_eq h3, BitVec.eq_of_toNat_eq h4,
    BitVec.eq_of_toNat_eq h5⟩

theorem op_cases (op : Field4) : op = 0 ∨ op = 1 ∨ op = 2 ∨ op = 3 ∨ op = 4 ∨ op = 5 ∨ op = 6 ∨ op = 7 ∨ op = 8 ∨
    op = 9 ∨ op = 10 ∨ op = 11 ∨ op = 12 ∨ op = 13 ∨ op = 14 ∨ op = 15 := by
  revert op; decide

/-- The OUT rows by the device number. -/
theorem Instr.ofOutFields_cases (f : Fields) :
    (f.oslot.toNat = 0 ∧ Instr.ofOutFields f = .outHalt f.oline f.nslot f.nline) ∨
    (f.oslot.toNat = 1 ∧ Instr.ofOutFields f = .outTransmit f.oline f.nslot f.nline) ∨
    (f.oslot.toNat = 2 ∧ Instr.ofOutFields f = .outBranch f.oline f.nslot f.nline) ∨
    (f.oslot.toNat = 3 ∧ Instr.ofOutFields f = .outDev3 f.oline f.nslot f.nline) ∨
    (4 ≤ f.oslot.toNat ∧ f.oslot.toNat ≤ 7 ∧ Instr.ofOutFields f = .outDev4to7 f.oslot f.oline f.nslot f.nline) ∨
    (8 ≤ f.oslot.toNat ∧ f.oslot.toNat ≤ 15 ∧ Instr.ofOutFields f = .outDev8to15 f.oslot f.oline f.nslot f.nline) ∨
    (16 ≤ f.oslot.toNat ∧ Instr.ofOutFields f = .outDev16to31 f.oslot f.oline f.nslot f.nline) := by
  unfold Instr.ofOutFields Fields.dev
  simp only [← BitVec.toNat_inj, Code.devHalt, Code.devTransmit, Code.devBranch, BitVec.reduceToNat]
  split_ifs with h0 h1 h2 h3 h4 h5 <;> simp <;> omega

theorem Instr.fields_ofFields (f : Fields) : (Instr.ofFields f).fields = f ∧ (Instr.ofFields f).WellFormed = true := by
  obtain ⟨op, os, ol, ns, nl⟩ := f
  rcases op_cases op with rfl | rfl | rfl | rfl | rfl | rfl | rfl | rfl | rfl | rfl | rfl | rfl | rfl | rfl | rfl | rfl
  case inr.inr.inr.inr.inr.inr.inr.inr.inr.inl =>
    change (Instr.ofOutFields ⟨9, os, ol, ns, nl⟩).fields = _ ∧ (Instr.ofOutFields ⟨9, os, ol, ns, nl⟩).WellFormed = true
    rcases Instr.ofOutFields_cases ⟨9, os, ol, ns, nl⟩ with h | h | h | h | h | h | h
    · exact ⟨h.2 ▸ Fields.eq_of_toNat rfl h.1.symm rfl rfl rfl, h.2 ▸ rfl⟩
    · exact ⟨h.2 ▸ Fields.eq_of_toNat rfl h.1.symm rfl rfl rfl, h.2 ▸ rfl⟩
    · exact ⟨h.2 ▸ Fields.eq_of_toNat rfl h.1.symm rfl rfl rfl, h.2 ▸ rfl⟩
    · exact ⟨h.2 ▸ Fields.eq_of_toNat rfl h.1.symm rfl rfl rfl, h.2 ▸ rfl⟩
    · exact ⟨h.2.2 ▸ rfl, h.2.2 ▸ decide_eq_true ⟨h.1, h.2.1⟩⟩
    · exact ⟨h.2.2 ▸ rfl, h.2.2 ▸ decide_eq_true ⟨h.1, h.2.1⟩⟩
    · exact ⟨h.2 ▸ rfl, h.2 ▸ decide_eq_true h.1⟩
  all_goals exact ⟨rfl, rfl⟩

theorem Instr.ofFields_fields {i : Instr} (h : i.WellFormed = true) : Instr.ofFields i.fields = i := by
  have out : ∀ dev ol ns nl, Instr.ofFields ⟨Code.opOut, dev, ol, ns, nl⟩ = Instr.ofOutFields ⟨Code.opOut, dev, ol, ns, nl⟩ :=
    fun _ _ _ _ => rfl
  cases i <;> try rfl
  all_goals
    simp only [Instr.WellFormed, decide_eq_true_eq] at h
    simp only [Instr.fields, out]
    rename_i dev ol ns nl
    rcases Instr.ofOutFields_cases ⟨Code.opOut, dev, ol, ns, nl⟩ with g | g | g | g | g | g | g <;>
      simp only at g <;> first | exact g.2 | exact g.2.2 | omega

/-- The fields of a decoded word are its fields. -/
theorem decode_fields (w : Word) : (decode w).fields = decodeFields w := (Instr.fields_ofFields _).1

/-- A decoded instruction is well-formed. -/
theorem decode_wellFormed (w : Word) : (decode w).WellFormed = true := (Instr.fields_ofFields _).2

/-- The ALU class is the first eight rows of the table. -/
theorem Instr.isAlu_eq (i : Instr) : i.isAlu = decide (i.row ≤ 7) := by
  have h (f : Fields) : (!f.isIo) = decide (f.op.toNat < 8) := by
    rw [Bool.eq_iff_iff, Bool.not_eq_true', ← Bool.not_eq_true, Fields.isIo_iff]
    simp
  unfold Instr.isAlu
  rw [h]
  cases i <;> rfl

namespace Machine

/-- The signed reading is the two's-complement value of the bit vector. -/
theorem toSigned_eq_toInt (w : Word) : toSigned w = w.toInt := by
  have := w.isLt
  unfold toSigned
  rw [bits_eq, BitVec.toInt_eq_toNat_cond]
  split <;> split <;> omega

theorem toSigned_bounds (w : Word) : -8388608 ≤ toSigned w ∧ toSigned w ≤ 8388607 := by
  have := w.isLt
  unfold toSigned
  rw [bits_eq]
  split <;> omega

theorem inSignedRange_iff (n : Int) : inSignedRange n = true ↔ -8388608 ≤ n ∧ n ≤ 8388607 := by
  unfold inSignedRange
  simp only [decide_eq_true_eq]
  omega

/-- A checked encoding that succeeds: the number was in range, and the word is its residue. -/
theorem encodeChecked_ok_iff {n : Int} {w : Word} :
    encodeChecked n = .ok w ↔ -8388608 ≤ n ∧ n ≤ 8388607 ∧ w = BitVec.ofInt 24 n := by
  have key : -8388608 ≤ n → n ≤ 8388607 →
      BitVec.ofNat 24 (if 0 ≤ n then n else n + 2 ^ 24).toNat = BitVec.ofInt 24 n := by
    intro h1 h2
    apply BitVec.eq_of_toNat_eq
    rw [BitVec.toNat_ofNat, BitVec.toNat_ofInt]
    split <;> omega
  unfold encodeChecked fromSigned
  by_cases h : inSignedRange n = true
  · have hb := (inSignedRange_iff n).1 h
    rw [if_pos h]
    simp only [Except.ok.injEq, key hb.1 hb.2]
    exact ⟨fun e => ⟨hb.1, hb.2, e.symm⟩, fun e => e.2.2.symm⟩
  · rw [if_neg h]
    simp only [reduceCtorEq, false_iff]
    rintro ⟨h1, h2, -⟩
    exact h ((inSignedRange_iff n).2 ⟨h1, h2⟩)

/-- A checked encoding that fails is the range error of that number. -/
theorem encodeChecked_error_iff {n : Int} {e : Fault} :
    encodeChecked n = .error e ↔ (n < -8388608 ∨ 8388607 < n) ∧ e = .rangeError n := by
  unfold encodeChecked fromSigned
  by_cases h : inSignedRange n = true
  · have hb := (inSignedRange_iff n).1 h
    rw [if_pos h]
    simp only [reduceCtorEq, false_iff]
    omega
  · rw [if_neg h]
    have : n < -8388608 ∨ 8388607 < n := by
      by_contra hc
      exact h ((inSignedRange_iff n).2 (by omega))
    simp [this, eq_comm]

end Machine

end Sys2Proof
end

