-- ==== Sys2Proof/Laws/Memory.lean ====
section
/-! SUPPORT. The laws of the drum's data: a read after a write, and that every operation keeps the canonical form. -/

namespace Sys2Proof.Machine

@[simp] theorem Memory.read_nil (a : Nat) : Memory.read [] a = unwrittenCell := rfl

theorem Memory.read_cons (k : Nat) (w : Word) (m : Memory) (a : Nat) :
    Memory.read ((k, w) :: m) a = if k = a then w else Memory.read m a := rfl

theorem Memory.wf_cons {k : Nat} {w : Word} {m : Memory} :
    Memory.wf ((k, w) :: m) = true ↔ w ≠ unwrittenCell ∧ Memory.keysAbove k m = true ∧ Memory.wf m = true := by
  simp [Memory.wf, and_assoc]

theorem Memory.keysAbove_cons {k k' : Nat} {w : Word} {m : Memory} :
    Memory.keysAbove k ((k', w) :: m) = true ↔ k < k' ∧ Memory.keysAbove k m = true := by
  simp [Memory.keysAbove]

theorem Memory.keysAbove_mono {j k : Nat} (hjk : j ≤ k) {m : Memory} (h : Memory.keysAbove k m = true) :
    Memory.keysAbove j m = true := by
  induction m with
  | nil => rfl
  | cons p m ih =>
    obtain ⟨k', w⟩ := p
    rw [Memory.keysAbove_cons] at h ⊢
    exact ⟨by omega, ih h.2⟩

/-- Below all its keys a list says nothing. -/
theorem Memory.read_of_keysAbove {k a : Nat} (hak : a ≤ k) {m : Memory} (h : Memory.keysAbove k m = true) :
    Memory.read m a = unwrittenCell := by
  induction m with
  | nil => rfl
  | cons p m ih =>
    obtain ⟨k', w⟩ := p
    rw [Memory.keysAbove_cons] at h
    rw [Memory.read_cons, if_neg (by omega), ih h.2]

theorem Memory.read_consCell {k : Nat} {v : Word} {m : Memory} (h : Memory.keysAbove k m = true) (a : Nat) :
    Memory.read (Memory.consCell k v m) a = if a = k then v else Memory.read m a := by
  unfold Memory.consCell
  split
  · next hv =>
    split
    · next ha => rw [Memory.read_of_keysAbove (by omega) h, hv]
    · rfl
  · simp [Memory.read_cons, eq_comm]

theorem Memory.wf_consCell {k : Nat} {v : Word} {m : Memory} (h : Memory.keysAbove k m = true)
    (hm : Memory.wf m = true) : Memory.wf (Memory.consCell k v m) = true := by
  unfold Memory.consCell
  split
  · exact hm
  · exact Memory.wf_cons.2 ⟨‹_›, h, hm⟩

theorem Memory.keysAbove_consCell {j k : Nat} {v : Word} {m : Memory} (hjk : j < k)
    (h : Memory.keysAbove j m = true) : Memory.keysAbove j (Memory.consCell k v m) = true := by
  unfold Memory.consCell
  split
  · exact h
  · exact Memory.keysAbove_cons.2 ⟨hjk, h⟩

theorem Memory.keysAbove_write {j a : Nat} {v : Word} {m : Memory} (hja : j < a)
    (h : Memory.keysAbove j m = true) : Memory.keysAbove j (Memory.write m a v) = true := by
  induction m with
  | nil => exact Memory.keysAbove_consCell hja h
  | cons p m ih =>
    obtain ⟨k, w⟩ := p
    have h' := Memory.keysAbove_cons.1 h
    unfold Memory.write
    split
    · exact Memory.keysAbove_consCell hja h
    · split
      · exact Memory.keysAbove_consCell hja h'.2
      · exact Memory.keysAbove_cons.2 ⟨h'.1, ih h'.2⟩

/-- A write keeps the canonical form. -/
theorem Memory.wf_write {m : Memory} (hm : Memory.wf m = true) (a : Nat) (v : Word) :
    Memory.wf (Memory.write m a v) = true := by
  induction m with
  | nil => exact Memory.wf_consCell rfl rfl
  | cons p m ih =>
    obtain ⟨k, w⟩ := p
    have h := Memory.wf_cons.1 hm
    unfold Memory.write
    split
    · next hak => exact Memory.wf_consCell (Memory.keysAbove_cons.2 ⟨hak, Memory.keysAbove_mono (by omega) h.2.1⟩) hm
    · split
      · next hak => exact Memory.wf_consCell (hak ▸ h.2.1) h.2.2
      · exact Memory.wf_cons.2 ⟨h.1, Memory.keysAbove_write (by omega) h.2.1, ih h.2.2⟩

/-- A read after a write: the written cell holds the new word, every other cell its old one. -/
theorem Memory.read_write {m : Memory} (hm : Memory.wf m = true) (a : Nat) (v : Word) (b : Nat) :
    Memory.read (Memory.write m a v) b = if b = a then v else Memory.read m b := by
  induction m with
  | nil => exact Memory.read_consCell rfl b
  | cons p m ih =>
    obtain ⟨k, w⟩ := p
    have h := Memory.wf_cons.1 hm
    unfold Memory.write
    split
    · next hak =>
      exact Memory.read_consCell (Memory.keysAbove_cons.2 ⟨hak, Memory.keysAbove_mono (by omega) h.2.1⟩) b
    · split
      · next hak =>
        subst hak
        rw [Memory.read_consCell h.2.1, Memory.read_cons]
        by_cases hb : b = a
        · rw [if_pos hb, if_pos hb]
        · rw [if_neg hb, if_neg hb, if_neg (Ne.symm hb)]
      · next hne =>
        rw [Memory.read_cons, Memory.read_cons, ih h.2.2]
        split
        · next hkb => rw [if_neg (by omega)]
        · rfl

/-- The keys a write leaves are old keys or the written one. -/
theorem Memory.mem_write {m : Memory} {a : Nat} {v : Word} {p : Nat × Word} (hp : p ∈ Memory.write m a v) :
    p ∈ m ∨ p = (a, v) := by
  induction m with
  | nil =>
    simp only [Memory.write, Memory.consCell] at hp
    split at hp <;> simp_all
  | cons q m ih =>
    obtain ⟨k, w⟩ := q
    unfold Memory.write at hp
    split at hp
    · simp only [Memory.consCell] at hp
      split at hp
      · exact .inl hp
      · rcases List.mem_cons.1 hp with h | h
        · exact .inr h
        · exact .inl h
    · split at hp
      · simp only [Memory.consCell] at hp
        split at hp
        · exact .inl (List.mem_cons_of_mem _ hp)
        · rcases List.mem_cons.1 hp with h | h
          · exact .inr h
          · exact .inl (List.mem_cons_of_mem _ h)
      · rcases List.mem_cons.1 hp with h | h
        · exact .inl (h ▸ List.mem_cons_self)
        · rcases ih h with h | h
          · exact .inl (List.mem_cons_of_mem _ h)
          · exact .inr h

/-- Distinct locations with slots below 32 have distinct keys. -/
theorem cellKey_inj {l sl l' sl' : Nat} (h : sl < 32) (h' : sl' < 32) :
    cellKey l sl = cellKey l' sl' ↔ l = l' ∧ sl = sl' := by
  unfold cellKey; omega

@[simp] theorem cellKey_line {l sl : Nat} (h : sl < 32) : cellKey l sl / 32 = l := by
  unfold cellKey; omega

@[simp] theorem cellKey_slot {l sl : Nat} (h : sl < 32) : cellKey l sl % 32 = sl := by
  unfold cellKey; omega

/-- Reading a cell after writing one. -/
theorem State.cell_setCell {s : State} (hm : s.drum.wf = true) (l sl : Nat) (v : Word) (l' sl' : Nat) :
    (s.setCell l sl v).cell l' sl' = if cellKey l' sl' = cellKey l sl then v else s.cell l' sl' :=
  Memory.read_write hm _ _ _

end Sys2Proof.Machine
end

