-- ==== Sys2Proof/Laws/Ops.lean ====
section
/-! SUPPORT. One lemma per shared operation: everything it can answer. -/

namespace Sys2Proof.Machine

theorem raise_eq {α : Type} (e : Fault) : (raise e : Host.Outcome α Fault Refusal) = .fault e := rfl

theorem drumRead_ok_iff {s : State} {l : Nat} {x : Word} :
    drumRead s l = .ok x ↔ l < s.cfg.nLines ∧ x = s.cell l s.cur := by
  unfold drumRead
  split
  · simp; omega
  · simp only [Except.ok.injEq]; constructor
    · intro h; exact ⟨by omega, h.symm⟩
    · intro h; exact h.2.symm

theorem drumRead_error_iff {s : State} {l : Nat} {e : Fault} :
    drumRead s l = .error e ↔ s.cfg.nLines ≤ l ∧ e = .outOfRange l s.cur := by
  unfold drumRead
  split <;> simp_all [eq_comm]

theorem drumRead_of_lt {s : State} {l : Nat} (h : l < s.cfg.nLines) : drumRead s l = .ok (s.cell l s.cur) :=
  drumRead_ok_iff.2 ⟨h, rfl⟩

theorem drumRead_of_le {s : State} {l : Nat} (h : s.cfg.nLines ≤ l) : drumRead s l = .error (.outOfRange l s.cur) :=
  drumRead_error_iff.2 ⟨h, rfl⟩

theorem drumWrite_next_iff {s t : State} {l : Nat} {v : Word} :
    drumWrite s l v = .next t ↔ l < s.cfg.nLines ∧ t = s.setCell l s.cur v := by
  unfold drumWrite raise
  split
  · simp; omega
  · simp only [Host.Outcome.next.injEq]; constructor
    · intro h; exact ⟨by omega, h.symm⟩
    · intro h; exact h.2.symm

theorem drumWrite_fault_iff {s : State} {l : Nat} {v : Word} {e : Fault} :
    drumWrite s l v = .fault e ↔ s.cfg.nLines ≤ l ∧ e = .outOfRange l s.cur := by
  unfold drumWrite raise
  split <;> simp_all [eq_comm]

theorem setAcc_next_iff {s t : State} {r : Except Fault Word} :
    setAcc s r = .next t ↔ ∃ w, r = .ok w ∧ t = { s with acc := w } := by
  unfold setAcc raise
  cases r <;> simp [eq_comm]

theorem setAcc_fault_iff {s : State} {r : Except Fault Word} {e : Fault} :
    setAcc s r = .fault e ↔ r = .error e := by
  unfold setAcc raise
  cases r <;> simp

theorem withOperand_of_lt {s : State} {ol : Field5} {f : Word → Host.Outcome State Fault Refusal}
    (h : ol.toNat < s.cfg.nLines) : withOperand s ol f = f (s.cell ol.toNat s.cur) := by
  unfold withOperand; rw [drumRead_of_lt h]

theorem withOperand_of_le {s : State} {ol : Field5} {f : Word → Host.Outcome State Fault Refusal}
    (h : s.cfg.nLines ≤ ol.toNat) : withOperand s ol f = .fault (.outOfRange ol.toNat s.cur) := by
  unfold withOperand; rw [drumRead_of_le h]; rfl

/-- An ALU-class operand either names a cell and the instruction goes on with its word, or it is `OutOfRange`. -/
theorem withOperand_cases (s : State) (ol : Field5) (f : Word → Host.Outcome State Fault Refusal) :
    (ol.toNat < s.cfg.nLines ∧ withOperand s ol f = f (s.cell ol.toNat s.cur)) ∨
    (s.cfg.nLines ≤ ol.toNat ∧ withOperand s ol f = .fault (.outOfRange ol.toNat s.cur)) := by
  rcases Nat.lt_or_ge ol.toNat s.cfg.nLines with h | h
  · exact .inl ⟨h, withOperand_of_lt h⟩
  · exact .inr ⟨h, withOperand_of_le h⟩

/-- The template of the six accumulator instructions answers a next state: the operand is there, the result is a word,
and only ACC changes. -/
theorem accOp_next_iff {s t : State} {ol : Field5} {f : Word → Except Fault Word} :
    (withOperand s ol fun x => setAcc s (f x)) = .next t ↔
      ol.toNat < s.cfg.nLines ∧ ∃ w, f (s.cell ol.toNat s.cur) = .ok w ∧ t = { s with acc := w } := by
  rcases withOperand_cases s ol fun x => setAcc s (f x) with ⟨h, e⟩ | ⟨h, e⟩ <;> rw [e]
  · rw [setAcc_next_iff]; simp [h]
  · simp; omega

/-- The template of the six accumulator instructions faults: no operand, or a result that is an error. -/
theorem accOp_fault_iff {s : State} {ol : Field5} {f : Word → Except Fault Word} {e : Fault} :
    (withOperand s ol fun x => setAcc s (f x)) = .fault e ↔
      (s.cfg.nLines ≤ ol.toNat ∧ e = .outOfRange ol.toNat s.cur) ∨
      (ol.toNat < s.cfg.nLines ∧ f (s.cell ol.toNat s.cur) = .error e) := by
  rcases withOperand_cases s ol fun x => setAcc s (f x) with ⟨h, e'⟩ | ⟨h, e'⟩ <;> rw [e']
  · rw [setAcc_fault_iff]; simp [h]
  · simp [h, eq_comm]

theorem reserved_of_noop {s : State} (h : s.cfg.reserved = .noop) : reserved s = .next s := by
  unfold reserved; rw [h]

theorem reserved_of_fault {s : State} (h : s.cfg.reserved = .fault) : reserved s = .fault (.reservedEncoding s.ir) := by
  unfold reserved; rw [h]; rfl

theorem reserved_next_iff {s t : State} : reserved s = .next t ↔ s.cfg.reserved = .noop ∧ t = s := by
  unfold reserved raise
  cases s.cfg.reserved <;> simp [eq_comm]

theorem validate_ok_iff {x : Int} {w : Word} :
    validate x = .ok w ↔ 0 ≤ x ∧ x ≤ 2 ^ 24 - 1 ∧ w = BitVec.ofNat 24 x.toNat := by
  unfold validate
  split
  · next h => simp only [Except.ok.injEq]; exact ⟨fun e => ⟨h.1, h.2, e.symm⟩, fun e => e.2.2.symm⟩
  · next h => simp only [reduceCtorEq, false_iff]; rintro ⟨h1, h2, -⟩; exact h ⟨h1, h2⟩

/-- A poke that succeeds writes one existing cell and nothing else, before the first tick. -/
theorem poke_next {s t : State} {l sl : Nat} {v : Int} (h : poke s l sl v = .next t) :
    s.started = false ∧ l < s.cfg.nLines ∧ sl < s.cfg.nSlots ∧ ∃ w, validate v = .ok w ∧ t = s.setCell l sl w := by
  unfold poke raise at h
  split at h
  · cases h
  · next hs =>
    split at h
    · cases h
    · next hg =>
      split at h
      · next w hw =>
        cases h
        exact ⟨by simpa using hs, by omega, by omega, w, hw, rfl⟩
      · cases h

end Sys2Proof.Machine
end

