-- ==== Sys2Proof/Laws/Engine.lean ====
section
/-! SUPPORT. What a meaning can do, and what a tick can do, each said once. -/

namespace Sys2Proof.Machine

/-- Inversion of `exec`: what a meaning that answers a next state was, and what it did. -/
theorem exec_next_cases {i : Instr} {s t : State} (h : exec i s = .next t) :
    (writesAcc i = true ∧ i.fields.oline.toNat < s.cfg.nLines ∧ ∃ w, t = { s with acc := w }) ∨
    (i.fields.op = Code.opBeq ∧ i.fields.oline.toNat < s.cfg.nLines ∧ t = branchIfZero s) ∨
    (i.fields.op = Code.opStore ∧ i.fields.oline.toNat < s.cfg.nLines ∧
      t = s.setCell i.fields.oline.toNat s.cur s.acc) ∨
    (i.row = 9 ∧ t = setHalt s) ∨ (i.row = 10 ∧ t = { s with tx := s.tx ++ [s.acc] }) ∨
    ((i.fields.op = Code.opIn ∨ isReserved i = true) ∧ t = s) := by
  have acc_case {ol : Field5} {f : Word → Except Fault Word}
      (h : (withOperand s ol fun x => setAcc s (f x)) = .next t) :
      ol.toNat < s.cfg.nLines ∧ ∃ w, t = { s with acc := w } := by
    obtain ⟨hl, w, -, ht⟩ := accOp_next_iff.1 h
    exact ⟨hl, w, ht⟩
  have reserved_case (h : reserved s = .next t) : t = s := (reserved_next_iff.1 h).2
  cases i with
  | load | add | sub | and | xor | rot => exact .inl ⟨rfl, acc_case h⟩
  | beq os ol ns nl =>
    rcases withOperand_cases s ol fun _ => .next (branchIfZero s) with ⟨hl, e⟩ | ⟨hl, e⟩ <;>
      (have h : withOperand s ol (fun _ => .next (branchIfZero s)) = .next t := h; rw [e] at h; cases h)
    exact .inr (.inl ⟨rfl, hl, rfl⟩)
  | store os ol ns nl => exact .inr (.inr (.inl ⟨rfl, drumWrite_next_iff.1 h⟩))
  | inp => cases h; exact .inr (.inr (.inr (.inr (.inr ⟨.inl rfl, rfl⟩))))
  | outHalt => cases h; exact .inr (.inr (.inr (.inl ⟨rfl, rfl⟩)))
  | outTransmit => cases h; exact .inr (.inr (.inr (.inr (.inl ⟨rfl, rfl⟩))))
  | outBranch | outDev3 | outDev4to7 | outDev8to15 | outDev16to31 =>
    exact .inr (.inr (.inr (.inr (.inr ⟨.inr rfl, reserved_case h⟩))))
  | reserved10 | reserved11 | reserved12 | reserved13 | reserved14 | reserved15 =>
    exact .inr (.inr (.inr (.inr (.inr ⟨.inr rfl, reserved_case h⟩))))

/-- Inversion of `exec`: why a meaning faults. -/
theorem exec_fault_cases {i : Instr} {s : State} {e : Fault} (h : exec i s = .fault e) :
    (i.isAlu = true ∧ s.cfg.nLines ≤ i.fields.oline.toNat ∧ e = .outOfRange i.fields.oline.toNat s.cur) ∨
    (i.fields.op = Code.opAdd ∧ i.fields.oline.toNat < s.cfg.nLines ∧
      addW s.acc (s.cell i.fields.oline.toNat s.cur) = .error e) ∨
    (i.fields.op = Code.opSub ∧ i.fields.oline.toNat < s.cfg.nLines ∧
      subW s.acc (s.cell i.fields.oline.toNat s.cur) = .error e) ∨
    (isReserved i = true ∧ s.cfg.reserved = .fault ∧ e = .reservedEncoding s.ir) := by
  have reserved_case (h : reserved s = .fault e) : s.cfg.reserved = .fault ∧ e = .reservedEncoding s.ir := by
    unfold reserved raise at h
    cases hc : s.cfg.reserved <;> simp_all
  have ok_case {ol : Field5} {f : Word → Word} (h : (withOperand s ol fun x => setAcc s (.ok (f x))) = .fault e) :
      s.cfg.nLines ≤ ol.toNat ∧ e = .outOfRange ol.toNat s.cur := by
    rcases accOp_fault_iff.1 h with h | ⟨-, h⟩
    · exact h
    · cases h
  cases i with
  | load | and | xor | rot => exact .inl ⟨Instr.isAlu_eq _, ok_case h⟩
  | add os ol ns nl =>
    rcases accOp_fault_iff.1 h with h | h
    · exact .inl ⟨Instr.isAlu_eq _, h⟩
    · exact .inr (.inl ⟨rfl, h⟩)
  | sub os ol ns nl =>
    rcases accOp_fault_iff.1 h with h | h
    · exact .inl ⟨Instr.isAlu_eq _, h⟩
    · exact .inr (.inr (.inl ⟨rfl, h⟩))
  | beq os ol ns nl =>
    rcases withOperand_cases s ol fun _ => .next (branchIfZero s) with ⟨hl, e'⟩ | ⟨hl, e'⟩ <;>
      (have h : withOperand s ol (fun _ => .next (branchIfZero s)) = .fault e := h; rw [e'] at h; cases h)
    exact .inl ⟨Instr.isAlu_eq _, hl, rfl⟩
  | store os ol ns nl => exact .inl ⟨Instr.isAlu_eq _, drumWrite_fault_iff.1 h⟩
  | inp => cases h
  | outHalt => cases h
  | outTransmit => cases h
  | outBranch | outDev3 | outDev4to7 | outDev8to15 | outDev16to31 =>
    exact .inr (.inr (.inr ⟨rfl, reserved_case h⟩))
  | reserved10 | reserved11 | reserved12 | reserved13 | reserved14 | reserved15 =>
    exact .inr (.inr (.inr ⟨rfl, reserved_case h⟩))

/-- What EVERY meaning leaves alone when it answers a next state: the latch, the phase flag, the cursor, the
revolution counter, the fault status and the parameters. -/
theorem exec_frame {i : Instr} {s t : State} (h : exec i s = .next t) :
    t.ir = s.ir ∧ t.await = s.await ∧ t.cur = s.cur ∧ t.rev = s.rev ∧ t.fault = s.fault ∧ t.cfg = s.cfg := by
  rcases exec_next_cases h with ⟨-, -, w, rfl⟩ | ⟨-, -, rfl⟩ | ⟨-, -, rfl⟩ | ⟨-, rfl⟩ | ⟨-, rfl⟩ | ⟨-, rfl⟩ <;> simp

/-- No meaning refuses: every instruction of the table has its effect or the spec's fatal error. -/
theorem exec_not_refused (i : Instr) (s : State) (r : Refusal) : exec i s ≠ .refused r := by
  have acc_case : ∀ (ol : Field5) (f : Word → Except Fault Word),
      (withOperand s ol fun x => setAcc s (f x)) ≠ .refused r := by
    intro ol f h
    rcases withOperand_cases s ol fun x => setAcc s (f x) with ⟨-, e⟩ | ⟨-, e⟩ <;> rw [e] at h
    · unfold setAcc raise at h; split at h <;> cases h
    · cases h
  have reserved_case : reserved s ≠ .refused r := by
    intro h; unfold reserved raise at h; split at h <;> cases h
  cases i with
  | load | add | sub | and | xor | rot => exact acc_case _ _
  | beq os ol ns nl =>
    intro h
    rcases withOperand_cases s ol fun _ => .next (branchIfZero s) with ⟨-, e⟩ | ⟨-, e⟩ <;>
      (have h : withOperand s ol (fun _ => .next (branchIfZero s)) = .refused r := h; rw [e] at h; cases h)
  | store os ol ns nl =>
    intro h
    have h : drumWrite s ol.toNat s.acc = .refused r := h
    unfold drumWrite raise at h; split at h <;> cases h
  | inp => intro h; cases h
  | outHalt => intro h; cases h
  | outTransmit => intro h; cases h
  | outBranch | outDev3 | outDev4to7 | outDev8to15 | outDev16to31 => exact reserved_case
  | reserved10 | reserved11 | reserved12 | reserved13 | reserved14 | reserved15 => exact reserved_case

/-- The four things a tick that goes on can have done (41_engine_cycle.md R136), `r` the state after rotation. -/
inductive TickCase (r : State) : StepOut → Prop where
  /-- Halted rotation. -/
  | halted (hh : r.halt = true) : TickCase r ⟨r, false⟩
  /-- Idle rotation: the current phase's slot is not under the cursor. -/
  | idle (hh : r.halt = false)
      (hi : r.await = true ∧ r.executeAligned = false ∨ r.await = false ∧ r.fetchAligned = false) : TickCase r ⟨r, false⟩
  /-- A fetch. -/
  | fetch (hh : r.halt = false) (ha : r.await = false) (hal : r.fetchAligned = true)
      (hl : r.fetchLine < r.cfg.nLines) : TickCase r ⟨latch r (r.cell r.fetchLine r.cur), false⟩
  /-- An execute. -/
  | execute (hh : r.halt = false) (ha : r.await = true) (hal : r.executeAligned = true) (u : State)
      (hu : exec (decode r.ir) r = .next u) : TickCase r ⟨endExecute u, true⟩

/-- Inversion of the step: a tick that answers a next state was on an unfaulted machine and did one of four things. -/
theorem stepOut_next {s : State} {o : StepOut} (h : stepOut s = .next o) :
    s.fault = none ∧ TickCase (drumStep s) o := by
  unfold stepOut at h
  split at h
  · cases h
  · next hf =>
    refine ⟨hf, ?_⟩
    simp only at h
    split at h
    · next hh => cases h; exact .halted hh
    · next hh =>
      have hh : (drumStep s).halt = false := by simpa using hh
      split at h
      · next ha =>
        unfold executePhase at h
        split at h
        · next hal =>
          split at h
          · next u hu => cases h; exact .execute hh ha hal u hu
          · cases h
          · cases h
        · next hal => cases h; exact .idle hh (.inl ⟨ha, by simpa using hal⟩)
      · next ha =>
        have ha : (drumStep s).await = false := by simpa using ha
        unfold fetchPhase at h
        split at h
        · next hal =>
          split at h
          · next w hw =>
            cases h
            obtain ⟨hl, rfl⟩ := drumRead_ok_iff.1 hw
            exact .fetch hh ha hal hl
          · cases h
        · next hal => cases h; exact .idle hh (.inr ⟨ha, by simpa using hal⟩)

/-- Inversion of the step: a tick that faults was an aligned fetch of a line that does not exist, or an aligned execute
whose meaning faulted. -/
theorem stepOut_fault {s : State} {e : Fault} (h : stepOut s = .fault e) :
    s.fault = none ∧ s.halt = false ∧
      (s.await = false ∧ (drumStep s).fetchAligned = true ∧ s.cfg.nLines ≤ s.fetchLine ∧
          e = .outOfRange s.fetchLine (drumStep s).cur ∨
        s.await = true ∧ (drumStep s).executeAligned = true ∧ exec (decode s.ir) (drumStep s) = .fault e) := by
  unfold stepOut at h
  split at h
  · cases h
  · next hf =>
    simp only at h
    split at h
    · cases h
    · next hh =>
      have hh : s.halt = false := by simpa using hh
      split at h
      · next ha =>
        unfold executePhase at h
        split at h
        · next hal =>
          split at h
          · cases h
          · next e' he => cases h; exact ⟨hf, hh, .inr ⟨ha, hal, he⟩⟩
          · cases h
        · cases h
      · next ha =>
        have ha : s.await = false := by simpa using ha
        unfold fetchPhase at h
        split at h
        · next hal =>
          split at h
          · cases h
          · next e' he =>
            cases h
            obtain ⟨hl, rfl⟩ := drumRead_error_iff.1 he
            exact ⟨hf, hh, .inl ⟨ha, hal, hl, rfl⟩⟩
        · cases h

/-- A step is refused only on a faulted machine. -/
theorem stepOut_refused {s : State} {r : Refusal} (h : stepOut s = .refused r) :
    ∃ f, s.fault = some f ∧ r = .alreadyFaulted f := by
  unfold stepOut at h
  split at h
  · next f hf => cases h; exact ⟨f, hf, rfl⟩
  · exfalso
    simp only at h
    unfold executePhase fetchPhase raise at h
    repeat' split at h
    all_goals first | exact exec_not_refused _ _ _ ‹_› | cases h

theorem stepOut_faulted {s : State} {f : Fault} (h : s.fault = some f) : stepOut s = .refused (.alreadyFaulted f) := by
  unfold stepOut; rw [h]

theorem stepOut_halted {s : State} (hf : s.fault = none) (hh : s.halt = true) :
    stepOut s = .next ⟨drumStep s, false⟩ := by
  unfold stepOut; rw [hf]; simp [hh]

theorem stepOut_fetchPhase {s : State} (hf : s.fault = none) (hh : s.halt = false) (ha : s.await = false) :
    stepOut s = fetchPhase (drumStep s) := by
  unfold stepOut; rw [hf]; simp [hh, ha]

theorem stepOut_executePhase {s : State} (hf : s.fault = none) (hh : s.halt = false) (ha : s.await = true) :
    stepOut s = executePhase (drumStep s) := by
  unfold stepOut; rw [hf]; simp [hh, ha]

theorem fetchPhase_idle {s : State} (h : s.fetchAligned = false) : fetchPhase s = .next ⟨s, false⟩ := by
  unfold fetchPhase; simp [h]

theorem fetchPhase_aligned {s : State} (h : s.fetchAligned = true) (hl : s.fetchLine < s.cfg.nLines) :
    fetchPhase s = .next ⟨latch s (s.cell s.fetchLine s.cur), false⟩ := by
  unfold fetchPhase; rw [if_pos h, drumRead_of_lt hl]

theorem fetchPhase_outOfRange {s : State} (h : s.fetchAligned = true) (hl : s.cfg.nLines ≤ s.fetchLine) :
    fetchPhase s = .fault (.outOfRange s.fetchLine s.cur) := by
  unfold fetchPhase; rw [if_pos h, drumRead_of_le hl]; rfl

theorem executePhase_idle {s : State} (h : s.executeAligned = false) : executePhase s = .next ⟨s, false⟩ := by
  unfold executePhase; simp [h]

theorem executePhase_next {s t : State} (h : s.executeAligned = true) (ht : exec (decode s.ir) s = .next t) :
    executePhase s = .next ⟨endExecute t, true⟩ := by
  unfold executePhase; rw [if_pos h, ht]

theorem executePhase_fault {s : State} {e : Fault} (h : s.executeAligned = true) (he : exec (decode s.ir) s = .fault e) :
    executePhase s = .fault e := by
  unfold executePhase; rw [if_pos h, he]

/-- The step answers a next state exactly when the full step does, and it is that state. -/
theorem step_next_iff {s t : State} : step s = .next t ↔ ∃ c, stepOut s = .next ⟨t, c⟩ := by
  unfold step
  rcases stepOut s with ⟨u, c⟩ | e | r <;> simp [dropCompleted]

theorem step_fault_iff {s : State} {e : Fault} : step s = .fault e ↔ stepOut s = .fault e := by
  unfold step
  rcases stepOut s with ⟨u, c⟩ | e | r <;> simp [dropCompleted]

theorem tick_of_next {s t : State} {c : Bool} (h : stepOut s = .next ⟨t, c⟩) : tick s = t := by
  unfold tick; rw [h]

theorem tick_of_fault {s : State} {e : Fault} (h : stepOut s = .fault e) : tick s = s.recordFault e := by
  unfold tick; rw [h]

theorem tick_of_faulted {s : State} {f : Fault} (h : s.fault = some f) : tick s = s := by
  unfold tick; rw [stepOut_faulted h]

@[simp] theorem ticks_zero (s : State) : ticks 0 s = s := rfl
@[simp] theorem ticks_succ (k : Nat) (s : State) : ticks (k + 1) s = ticks k (tick s) := rfl

theorem ticks_add (j k : Nat) (s : State) : ticks (j + k) s = ticks k (ticks j s) := by
  induction j generalizing s with
  | zero => simp
  | succ j ih => rw [Nat.succ_add, ticks_succ, ticks_succ, ih]

theorem ticks_succ_last (k : Nat) (s : State) : ticks (k + 1) s = tick (ticks k s) := by
  rw [ticks_add]; rfl

/-- A tick that leaves no fault recorded is a step that answers a next state. -/
theorem step_of_tick_alive {s : State} (h : (tick s).fault = none) : step s = .next (tick s) := by
  unfold step tick dropCompleted
  cases hs : stepOut s with
  | next o => rfl
  | fault e => rw [tick_of_fault hs] at h; cases h
  | refused r =>
    obtain ⟨f, hf, -⟩ := stepOut_refused hs
    rw [tick_of_faulted hf, hf] at h; cases h

/-- A fault, once recorded, stays. -/
theorem ticks_fault_none_of_succ {k : Nat} {s : State} (h : (ticks (k + 1) s).fault = none) :
    (ticks k s).fault = none := by
  rw [ticks_succ_last] at h
  cases hf : (ticks k s).fault with
  | none => rfl
  | some f => rw [tick_of_faulted hf, hf] at h; cases h

/-! ### Waiting: ticks that only rotate -/

theorem turned_zero {s : State} (h : s.cur < s.cfg.nSlots) : s.turned 0 = s := by
  have hm : (s.rev * s.cfg.nSlots + s.cur) % s.cfg.nSlots = s.cur := by
    rw [Nat.mul_comm, Nat.mul_add_mod, Nat.mod_eq_of_lt h]
  have hd : (s.rev * s.cfg.nSlots + s.cur) / s.cfg.nSlots = s.rev := by
    rw [Nat.mul_comm, Nat.mul_add_div (by omega), Nat.div_eq_of_lt h, Nat.add_zero]
  unfold State.turned
  rw [Nat.add_zero, hm, hd]

/-- One rotation more is one more on the tick count. -/
theorem drumStep_turned (s : State) (j : Nat) : drumStep (s.turned j) = s.turned (j + 1) := by
  unfold drumStep State.turned
  simp only [Nat.mod_add_mod, ← Nat.add_assoc]
  congr 1
  rw [Nat.succ_div]
  simp only [Nat.dvd_iff_mod_eq_zero]
  split <;> rfl

/-- As long as every tick is idle, ticking only rotates. -/
theorem ticks_eq_turned_of_idle {s : State} (h : s.cur < s.cfg.nSlots) (k : Nat)
    (hi : ∀ j, j < k → (s.turned j).IdleTick) : ticks k s = s.turned k := by
  induction k with
  | zero => exact (turned_zero h).symm
  | succ k ih =>
    rw [ticks_succ_last, ih fun j hj => hi j (by omega), ← drumStep_turned]
    obtain ⟨hf, hh, h | h⟩ := hi k (by omega)
    · exact tick_of_next ((stepOut_fetchPhase hf hh h.1).trans (fetchPhase_idle h.2))
    · exact tick_of_next ((stepOut_executePhase hf hh h.1).trans (executePhase_idle h.2))

end Sys2Proof.Machine
end

