-- ==== Sys2Proof/Laws/PerInstr.lean ====
section
/-! SUPPORT. Facts made per instruction, as syntax: the word of every well-formed instruction lies in its own row of the
opcode table (spec/opcode_table.json). -/

namespace Sys2Proof.Laws.EncodesInRow

/-- The fixed bits of the instruction's row hold the row's value in the instruction's word. -/
def Statement (i : Instr) : Prop :=
  i.WellFormed = true → ∀ r ∈ opcodeTable, r.row = i.row → bits (encode i) r.hi r.lo = r.value

/-- It is enough to look at the one row with the instruction's number. -/
theorem of_row {i : Instr} (r : OpcodeRow) (hr : opcodeTable.filter (fun q => q.row == i.row) = [r])
    (h : i.WellFormed = true → bits i.fields.word r.hi r.lo = r.value) : Statement i := by
  intro hw q hq he
  have hm : q ∈ opcodeTable.filter (fun q => q.row == i.row) := List.mem_filter.2 ⟨hq, by simpa using he⟩
  rw [hr, List.mem_singleton] at hm
  exact hm ▸ h hw

theorem load (a b c d : Field5) : Statement (.load a b c d) :=
  of_row ⟨0, 23, 20, 0⟩ rfl fun _ => bits_word_op _

theorem add (a b c d : Field5) : Statement (.add a b c d) :=
  of_row ⟨1, 23, 20, 1⟩ rfl fun _ => bits_word_op _

theorem sub (a b c d : Field5) : Statement (.sub a b c d) :=
  of_row ⟨2, 23, 20, 2⟩ rfl fun _ => bits_word_op _

theorem and (a b c d : Field5) : Statement (.and a b c d) :=
  of_row ⟨3, 23, 20, 3⟩ rfl fun _ => bits_word_op _

theorem xor (a b c d : Field5) : Statement (.xor a b c d) :=
  of_row ⟨4, 23, 20, 4⟩ rfl fun _ => bits_word_op _

theorem rot (a b c d : Field5) : Statement (.rot a b c d) :=
  of_row ⟨5, 23, 20, 5⟩ rfl fun _ => bits_word_op _

theorem beq (a b c d : Field5) : Statement (.beq a b c d) :=
  of_row ⟨6, 23, 20, 6⟩ rfl fun _ => bits_word_op _

theorem store (a b c d : Field5) : Statement (.store a b c d) :=
  of_row ⟨7, 23, 20, 7⟩ rfl fun _ => bits_word_op _

theorem inp (a b c d : Field5) : Statement (.inp a b c d) :=
  of_row ⟨8, 23, 20, 8⟩ rfl fun _ => bits_word_op _

theorem outHalt (a b c : Field5) : Statement (.outHalt a b c) :=
  of_row ⟨9, 23, 15, 288⟩ rfl fun _ => bits_word_dev _

theorem outTransmit (a b c : Field5) : Statement (.outTransmit a b c) :=
  of_row ⟨10, 23, 15, 289⟩ rfl fun _ => bits_word_dev _

theorem outBranch (a b c : Field5) : Statement (.outBranch a b c) :=
  of_row ⟨11, 23, 15, 290⟩ rfl fun _ => bits_word_dev _

theorem outDev3 (a b c : Field5) : Statement (.outDev3 a b c) :=
  of_row ⟨12, 23, 15, 291⟩ rfl fun _ => bits_word_dev _

theorem outDev4to7 (a b c d : Field5) : Statement (.outDev4to7 a b c d) :=
  of_row ⟨13, 23, 17, 73⟩ rfl fun hw => by
    refine (bits_word_from _ 2 (by omega)).trans ?_
    simp only [Instr.WellFormed, decide_eq_true_eq] at hw
    simp only [Instr.fields, Code.opOut, BitVec.reduceToNat, Nat.reduceMul, Nat.reducePow]
    omega

theorem outDev8to15 (a b c d : Field5) : Statement (.outDev8to15 a b c d) :=
  of_row ⟨14, 23, 18, 37⟩ rfl fun hw => by
    refine (bits_word_from _ 3 (by omega)).trans ?_
    simp only [Instr.WellFormed, decide_eq_true_eq] at hw
    simp only [Instr.fields, Code.opOut, BitVec.reduceToNat, Nat.reduceMul, Nat.reducePow]
    omega

theorem outDev16to31 (a b c d : Field5) : Statement (.outDev16to31 a b c d) :=
  of_row ⟨15, 23, 19, 19⟩ rfl fun hw => by
    refine (bits_word_from _ 4 (by omega)).trans ?_
    simp only [Instr.WellFormed, decide_eq_true_eq] at hw
    simp only [Instr.fields, Code.opOut, BitVec.reduceToNat, Nat.reduceMul, Nat.reducePow]
    omega

theorem reserved10 (a b c d : Field5) : Statement (.reserved10 a b c d) :=
  of_row ⟨16, 23, 20, 10⟩ rfl fun _ => bits_word_op _

theorem reserved11 (a b c d : Field5) : Statement (.reserved11 a b c d) :=
  of_row ⟨17, 23, 20, 11⟩ rfl fun _ => bits_word_op _

theorem reserved12 (a b c d : Field5) : Statement (.reserved12 a b c d) :=
  of_row ⟨18, 23, 20, 12⟩ rfl fun _ => bits_word_op _

theorem reserved13 (a b c d : Field5) : Statement (.reserved13 a b c d) :=
  of_row ⟨19, 23, 20, 13⟩ rfl fun _ => bits_word_op _

theorem reserved14 (a b c d : Field5) : Statement (.reserved14 a b c d) :=
  of_row ⟨20, 23, 20, 14⟩ rfl fun _ => bits_word_op _

theorem reserved15 (a b c d : Field5) : Statement (.reserved15 a b c d) :=
  of_row ⟨21, 23, 20, 15⟩ rfl fun _ => bits_word_op _

end Sys2Proof.Laws.EncodesInRow
end

