-- ==== Sys2Proof/Machine/Driver.lean ====
section
/-! DEFINITION. The `run(maxCycles)` driver (70_reset_and_hazards.md R239): a host procedure, not hardware
(00_scope.md R4 f; log 21). No step reads it. -/

namespace Sys2Proof.Machine

/-- How a driven run stops. -/
inductive RunEnd where
  /-- `HALT` is set, or the bound on completed cycles is reached. -/
  | stopped (s : State) (cycles : Nat)
  /-- A fatal error propagated out of `run`. -/
  | faulted (e : Fault)
  /-- The step was refused. -/
  | refused (r : Refusal)
  /-- `fuel` ticks went by: `run` itself need not return (R239). -/
  | stillRunning (s : State) (cycles : Nat)
  deriving DecidableEq, Repr

/-- `run(maxCycles)` for at most `fuel` ticks, `n` cycles being completed already. -/
def runDriver : Nat → Nat → Nat → State → RunEnd
  | 0, maxCycles, n, s => if s.halt || decide (maxCycles ≤ n) then .stopped s n else .stillRunning s n
  | fuel + 1, maxCycles, n, s =>
    if s.halt || decide (maxCycles ≤ n) then .stopped s n
    else match stepOut s with
      | .next o => runDriver fuel maxCycles (n + o.completed.toNat) o.state
      | .fault e => .faulted e
      | .refused r => .refused r

end Sys2Proof.Machine
end

