-- ==== Sys2Proof/Tests/Slice0.lean ====
section
/-! SUPPORT. Tests. Expected results are the spec's own vectors (95_test_vectors.md, V numbers), words written out from
the field table of 30_encoding.md R82, and hand calculation from the rules. -/

namespace Sys2Proof.Tests

open Sys2Proof.Machine

/-! ## Comparing outcomes -/

/-- The outcome is the next state `t`. -/
def nextIs {α : Type} [DecidableEq α] (o : Host.Outcome α Fault Refusal) (t : α) : Bool :=
  match o with
  | .next s => decide (s = t)
  | _ => false

/-- The outcome is the fault `e`. -/
def faultIs {α : Type} (o : Host.Outcome α Fault Refusal) (e : Fault) : Bool :=
  match o with
  | .fault f => decide (f = e)
  | _ => false

/-- The outcome is the refusal `r`. -/
def refusedIs {α : Type} (o : Host.Outcome α Fault Refusal) (r : Refusal) : Bool :=
  match o with
  | .refused q => decide (q = r)
  | _ => false

/-! ## Well-formedness: each check refuses an ill-formed term -/

theorem test_wf_refuses_outDev4to7 : (Instr.outDev4to7 8 0 0 0).WellFormed = false := by decide
theorem test_wf_refuses_outDev4to7_low : (Instr.outDev4to7 3 0 0 0).WellFormed = false := by decide
theorem test_wf_refuses_outDev8to15 : (Instr.outDev8to15 7 0 0 0).WellFormed = false := by decide
theorem test_wf_refuses_outDev8to15_high : (Instr.outDev8to15 16 0 0 0).WellFormed = false := by decide
theorem test_wf_refuses_outDev16to31 : (Instr.outDev16to31 15 0 0 0).WellFormed = false := by decide

/-! ## Decoding: words written out field by field, op ++ oslot ++ oline ++ nslot ++ nline -/

/-- V28: the constant 37 read as an instruction. -/
theorem test_decode_load : decode 0b0000_00000_00000_00001_00101 = .load 0 0 1 5 := by decide
/-- V21. -/
theorem test_decode_add : decode 0b0001_00100_10111_00101_00000 = .add 4 23 5 0 := by decide
/-- P2, 0x218480. -/
theorem test_decode_sub : decode 0b0010_00011_00001_00100_00000 = .sub 3 1 4 0 := by decide
/-- P3, 0x3288C0. -/
theorem test_decode_and : decode 0b0011_00101_00010_00110_00000 = .and 5 2 6 0 := by decide
/-- P3, 0x418880. -/
theorem test_decode_xor : decode 0b0100_00011_00010_00100_00000 = .xor 3 2 4 0 := by decide
/-- P3, 0x538900. -/
theorem test_decode_rot : decode 0b0101_00111_00010_01000_00000 = .rot 7 2 8 0 := by decide
/-- V23. -/
theorem test_decode_beq : decode 0b0110_00101_00000_00110_00000 = .beq 5 0 6 0 := by decide
/-- V22. -/
theorem test_decode_store : decode 0b0111_00110_10111_00111_00000 = .store 6 23 7 0 := by decide
/-- V55: any device, any operand line. -/
theorem test_decode_in : decode 0b1000_11111_11111_00010_00000 = .inp 31 31 2 0 := by decide
/-- V29. -/
theorem test_decode_outHalt : decode 0b1001_00000_00000_00000_00000 = .outHalt 0 0 0 := by decide
/-- V24. -/
theorem test_decode_outTransmit : decode 0b1001_00001_00000_10000_00000 = .outTransmit 0 16 0 := by decide
/-- V57, 0x910080. -/
theorem test_decode_outBranch : decode 0b1001_00010_00000_00100_00000 = .outBranch 0 4 0 := by decide
theorem test_decode_outDev3 : decode 0b1001_00011_00001_00010_00100 = .outDev3 1 2 4 := by decide
/-- V57, 0x9380C0: device 7. -/
theorem test_decode_outDev4to7 : decode 0b1001_00111_00000_00110_00000 = .outDev4to7 7 0 6 0 := by decide
theorem test_decode_outDev8to15 : decode 0b1001_01000_00001_00010_00100 = .outDev8to15 8 1 2 4 := by decide
theorem test_decode_outDev16to31 : decode 0b1001_11111_00001_00010_00100 = .outDev16to31 31 1 2 4 := by decide
/-- V57, 0xA2FC40. -/
theorem test_decode_reserved10 : decode 0b1010_00101_11111_00010_00000 = .reserved10 5 31 2 0 := by decide
theorem test_decode_reserved11 : decode 0b1011_00001_00010_00100_01000 = .reserved11 1 2 4 8 := by decide
theorem test_decode_reserved12 : decode 0b1100_00001_00010_00100_01000 = .reserved12 1 2 4 8 := by decide
theorem test_decode_reserved13 : decode 0b1101_00001_00010_00100_01000 = .reserved13 1 2 4 8 := by decide
theorem test_decode_reserved14 : decode 0b1110_00001_00010_00100_01000 = .reserved14 1 2 4 8 := by decide
/-- V25. -/
theorem test_decode_reserved15 : decode 0xFFFFFF = .reserved15 31 31 31 31 := by decide
/-- V26. -/
theorem test_decode_fields : decodeFields 0xABCDEF = ⟨10, 23, 19, 15, 15⟩ := by decide
/-- V21, V27: an operand slot of 36 is truncated to 4. -/
theorem test_encode_truncates : encodeFields 1 36 23 5 0 = 0x125CA0 := by decide
theorem test_encode_store : encode (.store 6 23 7 0) = 0x735CE0 := by decide
/-- The host's entry: the table gives the row 24 bits. -/
theorem test_decodeTableWord : decodeTableWord 24 0x125CA0 = some (.add 4 23 5 0) := by decide

/-! ## The word codec, V1 to V19b -/

theorem test_toSigned : [0x000000, 0x00002A, 0x7FFFFF, 0x800000, 0x800001, 0xFFFFFF].map toSigned
    = [0, 42, 8388607, -8388608, -8388607, -1] := by decide
theorem test_fromSigned : [-2, -8388608, 8388608].map fromSigned = [some 0xFFFFFE, some 0x800000, none] := by decide
theorem test_validate : (validate 16777216, validate (-1), validate 16777215)
    = (.error (.rangeError 16777216), .error (.rangeError (-1)), .ok 0xFFFFFF) := by decide
theorem test_fromFraction_exact : fromFraction 0 = .ok 0 := by decide +kernel
/-- V11, V12, V15: ties go away from zero. -/
theorem test_fromFraction_ties : (fromFraction (1 / 2), fromFraction (-1 / 2), fromFraction (-3 / 4))
    = (.ok 0x400000, .ok 0xC00000, .ok 0xA00001) := by decide +kernel
/-- V16, V17, V18. -/
theorem test_fromFraction_round : (fromFraction (1 / 10), fromFraction (1 / 3), fromFraction (999999 / 1000000))
    = (.ok 0x0CCCCD, .ok 0x2AAAAA, .ok 0x7FFFF7) := by decide +kernel
/-- V19: the bounds are excluded. -/
theorem test_fromFraction_domain : (fromFraction 1, fromFraction (-1), fromFraction (3 / 2))
    = (.error (.domainError 1), .error (.domainError (-1)), .error (.domainError (3 / 2))) := by decide +kernel
/-- V19a, V19b. -/
theorem test_toFraction : (toFraction 0x400000, toFraction 0x7FFFFF, toFraction 0x800000)
    = (4194304 / 8388607, 1, -8388608 / 8388607) := by decide +kernel

/-! ## The drum and the load port, V30 to V37 -/

theorem test_drumStep_wraps : (drumStep { State.reset with cur := 31 }).cur = 0
    ∧ (drumStep { State.reset with cur := 31 }).rev = 1 := by decide
/-- V34: a later poke to the same location replaces the earlier value. -/
theorem test_poke_last_wins : nextIs (loadImage State.reset [((23, 2), 37), ((23, 2), 38)])
    { State.reset with drum := [(738, 0x000026)] } := by decide

/-- A small machine: four lines of eight slots (V35, V64 to V67). -/
def small : Config := { defaultConfig with nLines := 4, nSlots := 8 }

/-- V35, V36. -/
theorem test_poke_faults : faultIs (poke (State.create small) 4 0 0) (.outOfRange 4 0)
    ∧ faultIs (poke (State.create small) 0 8 0) (.outOfRange 0 8)
    ∧ faultIs (poke State.reset 0 0 0x1000000) (.rangeError 0x1000000) := by decide
/-- V37. -/
theorem test_poke_refused : refusedIs (poke { State.reset with cur := 1 } 0 0 1) .pokeAfterStart := by decide

/-! ## One execute tick of each instruction, V40 to V58 -/

/-- A machine whose next tick executes the instruction `w`, with `acc` in ACC and `x` in the operand cell `23:6`. -/
def ready (w acc x : Word) : State :=
  { State.reset with ir := w, await := true, acc := acc, cur := 5, drum := Memory.write [] (cellKey 23 6) x }

/-- `ACC` after the tick, or the fault. -/
def accAfter (s : State) : Word × Option Fault := ((tick s).acc, (tick s).fault)

/-- Operation code `op` on the operand cell `23:6`, next `0:7`. -/
def on236 (op : Nat) : Word := encodeFields op 6 23 7 0

/-- V40. -/
theorem test_load : accAfter (ready (on236 0) 0x123456 0xFFFFFF) = (0xFFFFFF, none) := by decide
/-- V41b: 8388607 + -8388608. -/
theorem test_add : accAfter (ready (on236 1) 0x7FFFFF 0x800000) = (0xFFFFFF, none) := by decide
/-- V41g. -/
theorem test_add_faults : accAfter (ready (on236 1) 0x800000 0xFFFFFF) = (0x800000, some (.rangeError (-8388609))) := by
  decide
/-- V42. -/
theorem test_sub : accAfter (ready (on236 2) 0x000005 0x000007) = (0xFFFFFE, none) := by decide
/-- V42g. -/
theorem test_sub_faults : accAfter (ready (on236 2) 0x7FFFFF 0x800000) = (0x7FFFFF, some (.rangeError 16777215)) := by
  decide
/-- V43. -/
theorem test_and : accAfter (ready (on236 3) 0xFF0FF0 0x0FF000) = (0x0F0000, none) := by decide
/-- V44. -/
theorem test_xor : accAfter (ready (on236 4) 0x00F0F0 0xFFFF00) = (0xFF0FF0, none) := by decide
/-- V45f. -/
theorem test_rot : accAfter (ready (on236 5) 0xABCDEF 0x000007) = (0x5E6F7D, none) := by decide
/-- V45d, V45c. -/
theorem test_rot_counts : (accAfter (ready (on236 5) 0x123456 0x00FF00), accAfter (ready (on236 5) 0x123456 0xFFFFFF))
    = ((0x345612, none), (0x123456, none)) := by decide
/-- V46: the store replaces the cell, and the canonical form drops a zero. -/
theorem test_store : (tick (ready (on236 7) 0x00002A 5)).drum = [(742, 0x00002A)]
    ∧ (tick (ready (on236 7) 0 5)).drum = [] := by decide
/-- V67: `STORE 5:3` on four lines; the failing tick is undone, cursor included. -/
theorem test_store_out_of_range : tick { State.create small with ir := 0x7194A0, await := true, cur := 2, rev := 1 }
    = { State.create small with
        ir := 0x7194A0, await := true, cur := 2, rev := 1, fault := some (.outOfRange 5 3) } := by
  decide
/-- V51. -/
theorem test_beq_taken : tick { ready 0x6280C0 0 0 with cur := 4 }
    = { ready 0x6280C0 0 0 with cur := 5, await := false, bp := true } := by decide
/-- V50, V53. -/
theorem test_beq_not_taken : (tick { ready 0x6280C0 0x800000 0 with cur := 4 }).bp = false := by decide
/-- V51: with BP set the fetch waits for slot 7, reads `0:7` and clears BP. -/
theorem test_fetch_after_beq : tick { ready 0x6280C0 0 0 with cur := 6, await := false, bp := true, drum := [(7, 0x908120)] }
    = { ready 0x908120 0 0 with cur := 7, drum := [(7, 0x908120)] } := by decide
/-- V52: the target slot wraps to 0 of the same line. -/
theorem test_pc_wraps : ({ State.reset with ir := 0x6083E1, bp := true }).pc = (1, 0) := by decide
/-- V66: a fetch line beyond the geometry faults at the fetch. -/
theorem test_fetch_out_of_range : tick { State.create small with ir := 0x800045, cur := 1, rev := 1 }
    = { State.create small with ir := 0x800045, cur := 1, rev := 1, fault := some (.outOfRange 5 2) } := by decide
/-- V65: an operand slot beyond the geometry never aligns. -/
theorem test_hang : tick { State.create small with ir := 0x048000, await := true, cur := 0 }
    = { State.create small with ir := 0x048000, await := true, cur := 1 } := by decide
/-- P2, `IN 0 -> 0:2` executes at once, whatever the cursor. -/
theorem test_in : nextIs (stepOut (ready 0x800040 7 0))
    ⟨{ ready 0x800040 7 0 with cur := 6, await := false }, true⟩ := by
  decide
/-- V58. -/
theorem test_outHalt : nextIs (stepOut (ready 0x900000 7 0))
    ⟨{ ready 0x900000 7 0 with cur := 6, await := false, halt := true }, true⟩ := by decide
/-- V63: a halted machine keeps rotating and completes nothing. -/
theorem test_halted_rotates : nextIs (stepOut { State.reset with halt := true, cur := 8, rev := 1 })
    ⟨{ State.reset with halt := true, cur := 9, rev := 1 }, false⟩ := by decide
/-- V56. -/
theorem test_outTransmit : (tick { ready 0x908200 0xFFFFFE 0 with tx := [0x00002A] }).tx = [0x00002A, 0xFFFFFE] := by
  decide
theorem test_renderTx : renderTx [';'] [0x00002A, 0xFFFFFE] = ['4', '2', ';', '-', '2', ';'] := by decide
/-- V57: OUT BRANCH with ACC = 0 does not set BP. -/
theorem test_outBranch : tick (ready 0x910080 0 0) = { ready 0x910080 0 0 with cur := 6, await := false } := by decide
theorem test_outDev3 : tick (ready 0x9180C0 0 0) = { ready 0x9180C0 0 0 with cur := 6, await := false } := by decide
/-- V57. -/
theorem test_outDev4to7 : tick (ready 0x9380C0 0 0) = { ready 0x9380C0 0 0 with cur := 6, await := false } := by decide
theorem test_outDev8to15 : tick (ready 0x9400C0 0 0) = { ready 0x9400C0 0 0 with cur := 6, await := false } := by decide
theorem test_outDev16to31 : tick (ready 0x9F80C0 0 0) = { ready 0x9F80C0 0 0 with cur := 6, await := false } := by decide
/-- V57: opcode 10 does not wait for slot 5. -/
theorem test_reserved10 : tick (ready 0xA2FC40 0 0) = { ready 0xA2FC40 0 0 with cur := 6, await := false } := by decide
/-- V57: under `RESERVED_POLICY = fault`. -/
theorem test_reserved10_fault : faultIs (step { ready 0xA2FC40 0 0 with cfg := { defaultConfig with reserved := .fault } })
    (.reservedEncoding 0xA2FC40) := by decide
theorem test_reserved_others : [0xB00000, 0xC00000, 0xD00000, 0xE00000, 0xF00000].map (fun w => (tick (ready w 9 0)).acc)
    = [9, 9, 9, 9, 9] := by decide

/-! ## Reset, faults, the host's placing of an instruction -/

/-- V61: the first tick is idle. -/
theorem test_first_tick : nextIs (step State.reset) { State.reset with cur := 1 } := by decide
theorem test_faulted_machine_refuses : refusedIs (step { State.reset with fault := some (.rangeError 8388608) })
    (.alreadyFaulted (.rangeError 8388608)) := by decide
/-- `ADD 23:4` placed by the host runs in the very next step: 0 + the cell's word 0. -/
theorem test_withFetchWord_add : (tickAccess (State.reset.withFetchWord 24 0x125CA0)) = some (.read 23 4) := by decide
theorem test_withFetchWord_halt : (tick (State.reset.withFetchWord 24 0x900000)).halt = true := by decide
/-- P1's lines assemble to the words the spec prints beside them. -/
theorem test_assemble : [ProgramLine.alu (0, 0) (23, 2) .LOAD (0, 3), .io (0, 7) .HALT .OUT (0, 0)].map assembleLine
    = [.ok ((0, 0), 0x015C60), .ok ((0, 7), 0x900000)] := by decide
/-- R239: a bound of one completed cycle stops the driver after the tick that completes it. -/
theorem test_driver : runDriver 2 1 0 (ready 0x800040 7 0)
    = .stopped { ready 0x800040 7 0 with cur := 6, await := false } 1 := by decide

/-! ## Witnesses: states and operands that meet the hypotheses of the obligations

One theorem per obligation that has hypotheses, named after it; where its clauses differ in their hypotheses, one part per
clause, at boundary values. `e op acc x` is a machine whose next tick executes opcode `op` on `23:6`. -/

/-- A machine in its execute phase whose next tick executes. -/
def e (op : Nat) (acc x : Word) : State := ready (on236 op) acc x
/-- A machine in its fetch phase whose next tick fetches `0:1`, with branch pending or not. -/
def f (bp : Bool) : State :=
  { State.reset with ir := if bp then 0x600000 else 0x000020, bp := bp, drum := [(1, 0x900000)] }
/-- A halted machine. -/
def h0 : State := { State.reset with halt := true, cur := 31, rev := 4 }
/-- A machine of one line of one slot: the smallest there is. -/
def tiny : State := State.create ⟨1, 1, .fault, 0⟩

/-- The operation's outcome is a next state. -/
def goesOn {α : Type} (o : Host.Outcome α Fault Refusal) : Bool :=
  match o with
  | .next _ => true
  | _ => false

theorem goesOn_iff {α : Type} {o : Host.Outcome α Fault Refusal} : goesOn o = true ↔ ∃ t, o = .next t := by
  cases o <;> simp [goesOn]
theorem nextIs_iff {α : Type} [DecidableEq α] {o : Host.Outcome α Fault Refusal} {t : α} :
    nextIs o t = true ↔ o = .next t := by
  cases o <;> simp [nextIs]
theorem faultIs_iff {α : Type} {o : Host.Outcome α Fault Refusal} {x : Fault} : faultIs o x = true ↔ o = .fault x := by
  cases o <;> simp [faultIs]

theorem witness_FieldsAndWordsAreInverse :
    (15 < 16 ∧ 31 < 32 ∧ decodeFields (encodeFields 15 31 31 31 31) = ⟨15, 31, 31, 31, 31⟩) ∧
    decodeFields (encodeFields 0 0 0 0 0) = ⟨0, 0, 0, 0, 0⟩ := by decide
theorem witness_DecodeOfEncodeIsTheInstruction :
    ∀ i ∈ [Instr.load 31 31 31 31, .outHalt 31 0 31, .outDev4to7 4 0 0 0, .outDev4to7 7 0 0 0, .outDev8to15 8 0 0 0,
      .outDev8to15 15 0 0 0, .outDev16to31 16 0 0 0, .outDev16to31 31 0 0 0, .reserved15 0 31 0 31],
      i.WellFormed = true := by decide
theorem witness_TableRowSelectsTheDecodedInstruction :
    opcodeTable.length = 22 ∧ ⟨0, 23, 20, 0⟩ ∈ opcodeTable ∧ ⟨13, 23, 17, 73⟩ ∈ opcodeTable ∧ ⟨21, 23, 20, 15⟩ ∈ opcodeTable ∧
      bits 0x93FFFF 23 17 = 73 ∧ bits 0x940000 23 17 ≠ 73 := by decide
theorem witness_TopBitIsTheClassAndIoIgnoresTheLine :
    (decodeFields 0x800000).isIo = true ∧ (decodeFields 0xFFFFFF).isIo = true := by decide
theorem witness_ToSignedIsTwosComplement :
    (0x7FFFFF : Word).getLsbD 23 = false ∧ (0x800000 : Word).getLsbD 23 = true := by decide
theorem witness_SignedEncodingRoundTrips :
    [-8388608, -1, 0, 8388607].map fromSigned = [some 0x800000, some 0xFFFFFF, some 0, some 0x7FFFFF] ∧
    [-8388609, 8388608].map fromSigned = [none, none] := by decide
theorem witness_SignedSumsAreExactOrRangeErrors :
    addW 0x7FFFFE 1 = .ok 0x7FFFFF ∧ addW 0x7FFFFF 1 = .error (.rangeError 8388608) ∧ subW 0x800001 1 = .ok 0x800000 ∧
    subW 0x800000 1 = .error (.rangeError (-8388609)) ∧ toSigned 0x800000 < 0 ∧ 0 ≤ toSigned 0x7FFFFF ∧
    (toSigned 0 < 0 ↔ toSigned 0x7FFFFF < 0) := by decide
theorem witness_RotationIsOneStepPerSetBit : rotateScan 0xABCDEF 0x000007 24 = 0x5E6F7D ∧ 24 ≤ 24 ∧ 22 < 23
    ∧ (rotateOnce 0x400000).getLsbD 23 = true ∧ (rotateOnce 0x800000).getLsbD 0 = true := by decide
/-- Rounding down is one of the admissible roundings. -/
theorem witness_FractionRoundTripWithinOneUnit :
    ((-1 : Rat) < 999999 / 1000000 ∧ (999999 / 1000000 : Rat) < 1) ∧
    ∀ q : Rat, |q| < 8388607 → |((⌊q⌋ : Int) : Rat) - q| ≤ 1 ∧ |⌊q⌋| ≤ 8388607 := by
  refine ⟨by norm_num, fun q hq => ?_⟩
  have h1 := Int.floor_le q
  have h2 := Int.lt_floor_add_one q
  rw [abs_lt] at hq
  refine ⟨abs_le.2 ⟨by linarith, by linarith⟩, abs_le.2 ⟨?_, ?_⟩⟩
  · exact Int.le_floor.2 (by push_cast; linarith)
  · exact_mod_cast (h1.trans hq.2.le)
theorem witness_EveryTickRotatesTheDrumOnce :
    nextIs (step { State.reset with cur := 31 })
      { State.reset with cur := 0, rev := 1, await := true } = true ∧
    tiny.cfg.nSlots = 1 ∧ nextIs (step tiny) { tiny with rev := 1, await := true } = true := by decide
theorem witness_RevolutionsCountTheTicks :
    (State.create small).cfg.Valid ∧ (ticks 8 (State.create small)).fault = none ∧
      (ticks 8 (State.create small)).rev = 1 ∧ (ticks 7 (State.create small)).rev = 0 := by decide
theorem witness_ReadsReturnTheLatestWrite :
    (∀ p ∈ ([((3, 31), 5), ((3, 31), 0), ((0, 0), 7)] : List ((Nat × Nat) × Word)), p.1.2 < 32) ∧ 31 < 32 := by decide
theorem witness_EqualDrumsAreEqualData : Memory.wf [(0, 1), (742, 0x00002A)] = true ∧ Memory.wf [(742, 0)] = false := by decide
theorem witness_PokeWritesOneCellBeforeTheStart :
    { State.reset with cur := 1 }.started = true ∧ { State.reset with rev := 1 }.started = true ∧
    State.reset.started = false ∧ State.reset.cfg.nLines ≤ 32 ∧ State.reset.cfg.nSlots ≤ 32 ∧
    31 < State.reset.cfg.nLines ∧ 31 < State.reset.cfg.nSlots ∧
    nextIs (poke State.reset 31 31 0xFFFFFF) (State.reset.setCell 31 31 0xFFFFFF) = true ∧
    faultIs (poke State.reset 31 31 (-1)) (.rangeError (-1)) = true ∧
    faultIs (poke State.reset 31 32 (-1)) (.outOfRange 31 32) = true := by decide
/-- Each clause at the corners of the geometry, on a drum that holds a cell: two locations, in turn, one location, cell writes. -/
theorem witness_PokesCommuteAndTheLastWins :
    ∀ s ∈ [{ State.reset with drum := [(742, 0x000005)] }], s.cfg.Valid ∧ s.drum.wf = true ∧
      ((0, 31) : Nat × Nat) ≠ (31, 0) ∧ 31 < 32 ∧ 0 < 32 ∧
      nextIs (poke s 0 31 7) { s with drum := [(31, 7), (742, 0x000005)] } = true ∧
      nextIs (poke s 31 0 0xFFFFFF) { s with drum := [(742, 0x000005), (992, 0xFFFFFF)] } = true ∧
      nextIs (poke { s with drum := [(31, 7), (742, 0x000005)] } 31 0 0xFFFFFF)
        { s with drum := [(31, 7), (742, 0x000005), (992, 0xFFFFFF)] } = true ∧
      nextIs (poke s 0 31 0) s = true := by decide
theorem witness_FaultingTickChangesOnlyTheFaultStatus :
    step (e 1 0x800000 0xFFFFFF) = .fault (.rangeError (-8388609)) ∧
    step { State.create small with ir := 0x800045, cur := 1, rev := 1 } = .fault (.outOfRange 5 2) :=
  ⟨faultIs_iff.1 (by decide), faultIs_iff.1 (by decide)⟩
theorem witness_OutOfRangeExactlyAtABadAccess : State.reset.cfg.nLines = 32 ∧ State.reset.started = false ∧
    faultIs (poke State.reset 31 32 0) (.outOfRange 31 32) = true ∧
    faultIs (step { e 7 0 0 with cfg := { defaultConfig with nLines := 23 } }) (.outOfRange 23 6) = true ∧
    goesOn (step { e 7 0 0 with cfg := { defaultConfig with nLines := 24 } }) = true := by decide

/-- The operand line 31 exists on the default machine, line 0 on the smallest. -/
theorem witness_LoadCompletes : (31 : Field5).toNat < (e 0 1 2).cfg.nLines ∧ (0 : Field5).toNat < tiny.cfg.nLines := by decide
/-- The exact sums: the two ends of the range, and one beyond each. -/
theorem witness_AddCompletesInRange :
    ([(0x7FFFFE, 1), (0x800001, 0xFFFFFF), (0x7FFFFF, 1), (0x800000, 0xFFFFFF)].map fun p : Word × Word =>
      let s := drumStep (e 1 p.1 p.2)
      (decide ((23 : Field5).toNat < s.cfg.nLines), toSigned s.acc + toSigned (s.cell 23 s.cur))) =
    [(true, 2 ^ 23 - 1), (true, -(2 ^ 23)), (true, 2 ^ 23), (true, -(2 ^ 23) - 1)] := by decide +kernel
/-- The exact differences: the two ends of the range, and one beyond each. -/
theorem witness_SubCompletesInRange :
    ([(0x7FFFFE, 0xFFFFFF), (0x800001, 1), (0x7FFFFF, 0xFFFFFF), (0x800000, 1)].map fun p : Word × Word =>
      let s := drumStep (e 2 p.1 p.2)
      (decide ((23 : Field5).toNat < s.cfg.nLines), toSigned s.acc - toSigned (s.cell 23 s.cur))) =
    [(true, 2 ^ 23 - 1), (true, -(2 ^ 23)), (true, 2 ^ 23), (true, -(2 ^ 23) - 1)] := by decide +kernel
theorem witness_AndXorCompleteBitByBit : (23 : Field5).toNat < (e 3 0xFF0FF0 0x0FF000).cfg.nLines := by decide
theorem witness_RotCompletesAsTheScan : (e 5 1 2).cfg.Valid ∧ (31 : Field5).toNat < (e 5 1 2).cfg.nLines ∧ tiny.cfg.Valid ∧
    (0 : Field5).toNat < tiny.cfg.nLines := by decide
theorem witness_StoreCompletes : (e 7 1 2).drum.wf = true ∧ (e 7 1 2).cur < 32 ∧ (31 : Field5).toNat < (e 7 1 2).cfg.nLines ∧
    h0.cur < 32 ∧ h0.cur = 31 := by decide
theorem witness_BeqCompletes : (31 : Field5).toNat < (e 6 0 2).cfg.nLines ∧ (e 6 0 2).acc = 0 ∧ (e 6 1 2).acc ≠ 0 := by decide
theorem witness_ReservedRowsCompleteUnderNoop : State.reset.cfg.reserved = .noop ∧ tiny.cfg.reserved = .fault ∧
    Instr.outBranch 0 4 0 ∈ [Instr.outBranch 0 4 0, .reserved15 0 0 4 0] := by decide

/-- Each of the six on `23:6` of a machine under the cursor. -/
theorem witness_AccumulatorInstructionsFrame :
    ∀ i ∈ [Instr.load 6 23 7 0, .add 6 23 7 0, .sub 6 23 7 0, .and 6 23 7 0, .xor 6 23 7 0, .rot 6 23 7 0],
      writesAcc i = true ∧ goesOn (exec i (drumStep (e 0 1 2))) = true := by decide
theorem witness_StoreFrame : (drumStep (e 7 1 2)).drum.wf = true ∧
    goesOn (exec (.store 6 23 7 0) (drumStep (e 7 1 2))) = true ∧ cellKey 23 (drumStep (e 7 1 2)).cur = 742 := by decide
theorem witness_BranchAndIoFrame :
    ∀ i ∈ [Instr.beq 6 23 7 0, .inp 31 23 7 0, .outHalt 23 7 0, .outTransmit 23 7 0, .outBranch 23 7 0, .reserved15 6 23 7 0],
      writesAcc i = false ∧ i.row ≠ 7 ∧ goesOn (exec i (drumStep (e 6 0 2))) = true := by decide

/-- A step that goes on and one that faults, both in an execute tick. -/
theorem witness_StepRunsTheDecodedInstruction :
    ((e 1 3 4).ExecuteTick ∧ decode (e 1 3 4).ir = .add 6 23 7 0 ∧
      goesOn (exec (.add 6 23 7 0) (drumStep (e 1 3 4))) = true) ∧
    (e 1 0x7FFFFF 1).ExecuteTick ∧
      faultIs (exec (.add 6 23 7 0) (drumStep (e 1 0x7FFFFF 1))) (.rangeError 8388608) = true := by decide
theorem witness_FetchLatchesTheWordUnderTheCursor :
    ∀ b ∈ [true, false], (f b).FetchTick ∧ (f b).fetchLine < (f b).cfg.nLines := by decide
theorem witness_HaltedTickOnlyRotates : h0.HaltedTick := by decide
/-- Idle in the fetch phase, and in the execute phase. -/
theorem witness_IdleTickOnlyRotates : State.reset.IdleTick ∧ { e 1 3 4 with cur := 6 }.IdleTick := by decide
theorem witness_OneActionPerTick : h0.HaltedTick ∧ State.reset.IdleTick ∧ (f true).FetchTick ∧ (e 1 3 4).ExecuteTick ∧
    ∀ s ∈ [h0, State.reset, f true, e 1 3 4], goesOn (stepOut s) = true := by decide
/-- A fetch, a read, a write, an I/O-class execute, an idle tick and a halted one. -/
theorem witness_AtMostOneAccessPerTick :
    (f false).FetchTick ∧ (e 6 0 2).ExecuteTick ∧ (e 6 0 2).irFields.op.toNat ≤ 6 ∧ (e 7 1 2).ExecuteTick ∧
    (e 7 1 2).irFields.op = Code.opStore ∧ (e 8 1 2).ExecuteTick ∧ (e 8 1 2).irFields.isIo = true ∧
    (tick (e 7 1 2)).cell 23 6 ≠ (e 7 1 2).cell 23 6 ∧ (e 7 1 2).cfg.Valid ∧ (e 7 1 2).drum.wf = true ∧
    ∀ s ∈ [f false, e 6 0 2, e 7 1 2, e 8 1 2, State.reset, h0], goesOn (step s) = true := by decide
theorem witness_PlacedWordRunsInTheNextStep : (e 7 1 2).cfg.Valid ∧ (decodeFields 0x9FFFFF).isIo = true ∧
    (decodeFields 0x0FFFFF).isIo = false ∧ (decodeFields 0x0FFFFF).oslot.toNat < (e 7 1 2).cfg.nSlots ∧
    goesOn (exec (decode 0x0FFFFF) (drumStep ((e 7 1 2).withFetchWord 24 0x0FFFFF))) = true := by decide

theorem witness_CreatedMachineMeetsTheInvariant : tiny.cfg.Valid ∧ defaultConfig.Valid ∧ small.Valid := by decide

/-- A state meets the invariant if its decidable part holds and no fault is recorded. -/
theorem inv_of {s : State} (h : s.cfg.Valid ∧ s.cur < s.cfg.nSlots ∧ s.drum.wf = true ∧ s.DrumInGeometry ∧
    (s.halt = true → s.await = false) ∧
    (s.bp = true → s.await = false ∧ s.halt = false ∧ s.irFields.op = Code.opBeq ∧ s.acc = 0) ∧ s.fault = none) : s.Inv :=
  ⟨h.1, h.2.1, h.2.2.1, h.2.2.2.1, h.2.2.2.2.1, h.2.2.2.2.2.1, fun _ hf => by rw [h.2.2.2.2.2.2] at hf; cases hf⟩

/-- Running, with branch pending, and about to end in a fatal error. -/
theorem witness_EveryStepKeepsTheInvariant :
    ((e 7 1 2).Inv ∧ ∃ t, step (e 7 1 2) = .next t) ∧ ((f true).Inv ∧ ∃ t, step (f true) = .next t) ∧
    ((e 1 0x7FFFFF 1).Inv ∧ step (e 1 0x7FFFFF 1) = .fault (.rangeError 8388608)) ∧ h0.Inv :=
  ⟨⟨inv_of (by decide), goesOn_iff.1 (by decide)⟩, ⟨inv_of (by decide), goesOn_iff.1 (by decide)⟩,
    ⟨inv_of (by decide), faultIs_iff.1 (by decide)⟩, inv_of (by decide)⟩
theorem witness_PokeKeepsTheInvariant : State.reset.Inv ∧ ∃ t, poke State.reset 31 31 0xFFFFFF = .next t :=
  ⟨inv_of (by decide), goesOn_iff.1 (by decide)⟩
/-- A step of each kind that changes its element. -/
theorem witness_EachElementHasItsWriters :
    (tick (e 0 1 2)).acc ≠ (e 0 1 2).acc ∧ (tick (f false)).ir ≠ (f false).ir ∧ (tick (f false)).await ≠ (f false).await ∧
    (tick (e 0 1 2)).await ≠ (e 0 1 2).await ∧ (tick (ready 0x908200 7 0)).tx ≠ (ready 0x908200 7 0).tx ∧
    (tick (e 7 1 2)).drum ≠ (e 7 1 2).drum ∧
    ∀ s ∈ [e 0 1 2, f false, ready 0x908200 7 0, e 7 1 2], goesOn (step s) = true := by decide
theorem witness_BranchPendingIsSetOnlyByBeq :
    ((f true).FetchTick ∧ (f true).bp = true) ∧
    ((e 6 0 2).ExecuteTick ∧ (e 6 0 2).irFields.op = Code.opBeq ∧ (e 6 0 2).acc = 0) ∧
    (¬(e 6 1 2).FetchTick ∧ ¬((e 6 1 2).ExecuteTick ∧ (e 6 1 2).irFields.op = Code.opBeq ∧ (e 6 1 2).acc = 0)) ∧
    ∀ s ∈ [f true, e 6 0 2, e 6 1 2], goesOn (step s) = true := by decide
theorem witness_HaltIsSetOnlyByOutHaltAndNeverCleared :
    ((ready 0x900000 7 0).ExecuteTick ∧ decode (ready 0x900000 7 0).ir = .outHalt 0 0 0 ∧
      goesOn (step (ready 0x900000 7 0)) = true) ∧ h0.Alive ∧ h0.halt = true := by decide
theorem witness_NoStepReadsRevOrTx : goesOn (step (ready 0x908200 7 0)) = true ∧
    faultIs (step (e 1 0x7FFFFF 1)) (.rangeError 8388608) = true := by decide

/-- The longest wait: the fetch slot was under the cursor in this tick; and the shortest. -/
theorem witness_FetchHappensExactlyWhenItsSlotComesRound :
    ∀ c ∈ [0, 1], ∀ s ∈ [{ f true with cur := c }], s.cfg.Valid ∧ s.cur < s.cfg.nSlots ∧ s.Alive ∧ s.halt = false ∧
      s.await = false ∧ s.fetchLine < s.cfg.nLines ∧ s.ticksUntil s.fetchSlot = if c = 0 then 1 else 32 := by decide
/-- An I/O-class instruction, and an ALU-class one that waits a whole revolution. -/
theorem witness_ExecuteHappensExactlyWhenItsSlotComesRound :
    ∀ s ∈ [e 8 1 2, { e 0 1 2 with cur := 6 }], s.cfg.Valid ∧ s.cur < s.cfg.nSlots ∧ s.Alive ∧ s.halt = false ∧ s.await = true ∧
      (s.irFields.isIo = true ∨ s.irFields.oslot.toNat < s.cfg.nSlots ∧ s.ticksUntil s.irFields.oslot.toNat = 32) := by decide
theorem witness_CycleEndsWithinTwoRevolutions :
    ((f true).cfg.Valid ∧ (f true).cur < (f true).cfg.nSlots ∧ (f true).Alive ∧ (f true).halt = false ∧ (f true).await = false) ∧
    (decodeFields ((f true).cell (f true).fetchLine (f true).fetchSlot)).isIo = true ∧
    (decodeFields (State.reset.cell State.reset.fetchLine State.reset.fetchSlot)).oslot.toNat < State.reset.cfg.nSlots := by decide
theorem witness_FirstFetchIsFromZeroAtTickNSlots : tiny.cfg.Valid ∧ 0 < tiny.cfg.nSlots ∧ defaultConfig.Valid ∧
    31 < defaultConfig.nSlots := by decide
/-- Target slot 31: the taken branch wraps to slot 0. -/
theorem witness_BeqChoosesBetweenAdjacentCells :
    ∀ s ∈ [ready (encodeFields 6 6 23 31 5) 0 2, ready (encodeFields 6 6 23 31 5) 1 2],
      s.ExecuteTick ∧ s.irFields.op = Code.opBeq ∧ s.bp = false ∧ goesOn (step s) = true := by decide
theorem test_beq_pcs : ([0, 1].map fun acc => (tick (ready (encodeFields 6 6 23 31 5) acc 2)).pc) = [(5, 0), (5, 31)] := by
  decide
theorem witness_HaltedMachineOnlyTurnsForEver : h0.cur < h0.cfg.nSlots ∧ h0.HaltedTick := by decide
/-- Operand slot 8 of a machine of eight slots. -/
theorem witness_MissingOperandSlotHangs :
    ∀ s ∈ [{ State.create small with ir := encodeFields 0 8 0 0 0, await := true, cur := 7 }], s.cur < s.cfg.nSlots ∧ s.Alive ∧
      s.halt = false ∧ s.await = true ∧ s.irFields.isIo = false ∧ s.cfg.nSlots ≤ s.irFields.oslot.toNat := by decide

end Sys2Proof.Tests
end

section
/-! PROOF. Who sets HALT (10_state.md R27): first of one meaning, then of one tick. -/

namespace Sys2Proof.Machine

theorem row_eq_nine_iff_outHalt {i : Instr} : i.row = 9 ↔ ∃ ol ns nl, i = .outHalt ol ns nl := by
  cases i <;> simp [Instr.row]

/-- Among the meanings, only OUT HALT's writes HALT (44_io.md R183). -/
theorem exec_halt_iff {i : Instr} {s t : State} (h : exec i s = .next t) :
    t.halt = true ↔ s.halt = true ∨ ∃ ol ns nl, i = .outHalt ol ns nl := by
  rw [← row_eq_nine_iff_outHalt]
  by_cases hrow : i.row = 9
  · obtain ⟨ol, ns, nl, rfl⟩ := row_eq_nine_iff_outHalt.1 hrow
    cases h
    simp [hrow]
  · rcases exec_next_cases h with ⟨-, -, w, rfl⟩ | ⟨-, -, rfl⟩ | ⟨-, -, rfl⟩ | ⟨hout, -⟩ | ⟨-, rfl⟩ | ⟨-, rfl⟩
    case inr.inr.inr.inl => exact absurd hout hrow
    all_goals simp [hrow]

/-- HALT after a tick that goes on, by what the tick did: a rotation and a fetch leave it, an execute is its meaning. -/
theorem step_halt_iff {s t : State} (h : step s = .next t) :
    t.halt = true ↔ s.halt = true ∨ s.ExecuteTick ∧ ∃ ol ns nl, decode s.ir = .outHalt ol ns nl := by
  obtain ⟨c, hc⟩ := step_next_iff.1 h
  obtain ⟨hf, hcase⟩ := stepOut_next hc
  cases hcase with
  | halted hh => exact iff_of_true hh (.inl hh)
  | idle hh hi =>
    have hx : ¬ s.ExecuteTick := by
      rintro ⟨-, -, ha, hal⟩
      rcases hi with ⟨-, hal'⟩ | ⟨ha', -⟩
      · exact Bool.false_ne_true (hal'.symm.trans hal)
      · exact Bool.false_ne_true (ha'.symm.trans ha)
    simp only [hx, drumStep_halt, false_and, or_false]
  | fetch hh ha hal hl =>
    have hx : ¬ s.ExecuteTick := by
      rintro ⟨-, -, ha', -⟩
      exact Bool.false_ne_true (ha.symm.trans ha')
    simp only [hx, latch_halt, drumStep_halt, false_and, or_false]
  | execute hh ha hal u hu =>
    have hx : s.ExecuteTick := ⟨hf, hh, ha, hal⟩
    rw [and_iff_right hx, endExecute_halt, exec_halt_iff hu, drumStep_halt, drumStep_ir]

theorem step_of_halted {s : State} (hf : s.Alive) (hh : s.halt = true) : step s = .next (drumStep s) :=
  step_next_iff.2 ⟨false, stepOut_halted hf hh⟩

/-- Settles O50: a tick sets HALT only by the execute of OUT HALT and no tick clears it (`step_halt_iff`); the halted
step is the rotation (`step_of_halted`). -/
theorem haltIsSetOnlyByOutHaltAndNeverCleared : Obligations.HaltIsSetOnlyByOutHaltAndNeverCleared :=
  ⟨fun _ _ => step_halt_iff, fun _ => step_of_halted, create_halt⟩

end Sys2Proof.Machine
end

section
/-! PROOF. The drum access of a tick (20_memory.md R58): first of one meaning, then of each kind of tick; and that a cell
changes only when it is the one written. -/

namespace Sys2Proof.Machine

/-- The access of a meaning, read off the operation field alone: LOAD to BEQ read, STORE writes, the rest access nothing. -/
theorem executeAccess_eq (i : Instr) (r : State) :
    executeAccess i r =
      if i.fields.op.toNat ≤ 6 then some (.read i.fields.oline.toNat r.cur)
      else if i.fields.op = Code.opStore then some (.write i.fields.oline.toNat r.cur)
      else none := by
  cases i <;> rfl

theorem executeAccess_of_op_le_six {i : Instr} (h : i.fields.op.toNat ≤ 6) (r : State) :
    executeAccess i r = some (.read i.fields.oline.toNat r.cur) := by
  rw [executeAccess_eq, if_pos h]

theorem executeAccess_of_opStore {i : Instr} (h : i.fields.op = Code.opStore) (r : State) :
    executeAccess i r = some (.write i.fields.oline.toNat r.cur) := by
  have hop : ¬ i.fields.op.toNat ≤ 6 := by rw [h]; decide
  rw [executeAccess_eq, if_neg hop, if_pos h]

theorem executeAccess_of_isIo {i : Instr} (h : i.fields.isIo = true) (r : State) : executeAccess i r = none := by
  have hio : 8 ≤ i.fields.op.toNat := (Fields.isIo_iff _).1 h
  have hstore : i.fields.op ≠ Code.opStore := by
    intro hs
    rw [hs] at hio
    exact absurd hio (by decide)
  rw [executeAccess_eq, if_neg (by omega), if_neg hstore]

/-- A meaning changes a cell only by the write it is recorded to make. -/
theorem exec_cell_ne {i : Instr} {s t : State} (h : exec i s = .next t) (hwf : s.drum.wf = true) (hcur : s.cur < 32)
    {l sl : Nat} (hsl : sl < 32) (hne : t.cell l sl ≠ s.cell l sl) : executeAccess i s = some (.write l sl) := by
  rcases exec_next_cases h with ⟨-, -, w, rfl⟩ | ⟨-, -, rfl⟩ | ⟨hop, -, rfl⟩ | ⟨-, rfl⟩ | ⟨-, rfl⟩ | ⟨-, rfl⟩
  case inr.inr.inl =>
    have hkey : cellKey l sl = cellKey i.fields.oline.toNat s.cur := by
      by_contra hk
      exact hne (by rw [State.cell_setCell hwf, if_neg hk])
    obtain ⟨rfl, rfl⟩ := (cellKey_inj hsl hcur).1 hkey
    exact executeAccess_of_opStore hop s
  all_goals exact absurd (by simp [State.cell]) hne

section
variable {s : State} {o : StepOut} (h : stepOut s = .next o)
include h

theorem tickAccess_of_haltedTick (hx : s.HaltedTick) : tickAccess s = none := by
  obtain ⟨-, hh⟩ := hx
  simp [tickAccess, h, hh]

theorem tickAccess_of_idleTick (hx : s.IdleTick) : tickAccess s = none := by
  obtain ⟨-, hh, ⟨ha, hal⟩ | ⟨ha, hal⟩⟩ := hx
  · simp [tickAccess, h, hh, ha, hal]
  · simp [tickAccess, h, hh, ha, hal]

theorem tickAccess_of_fetchTick (hx : s.FetchTick) :
    tickAccess s = some (.read s.fetchLine (drumStep s).cur) := by
  obtain ⟨-, hh, ha, hal⟩ := hx
  simp [tickAccess, h, hh, ha, hal]

theorem tickAccess_of_executeTick (hx : s.ExecuteTick) :
    tickAccess s = executeAccess (decode s.ir) (drumStep s) := by
  obtain ⟨-, hh, ha, hal⟩ := hx
  simp [tickAccess, h, hh, ha, hal]

/-- Of the four kinds of tick only an execute can change a cell, and then it is the one its meaning writes. -/
theorem stepOut_cell_ne (hwf : s.drum.wf = true) (hv : s.cfg.Valid) {l sl : Nat} (hsl : sl < 32)
    (hne : o.state.cell l sl ≠ s.cell l sl) : tickAccess s = some (.write l sl) := by
  obtain ⟨hf, hcase⟩ := stepOut_next h
  cases hcase with
  | halted | idle | fetch => exact absurd rfl hne
  | execute hh ha hal u hu =>
    have hcur : (drumStep s).cur < 32 :=
      (Nat.mod_lt _ (by omega)).trans_le (show s.cfg.nSlots ≤ 32 by omega)
    rw [tickAccess_of_executeTick h ⟨hf, hh, ha, hal⟩]
    exact exec_cell_ne hu hwf hcur hsl hne

end

/-- Settles O42: the access of each kind of tick (`tickAccess_of_fetchTick` and its siblings), of an execute by the
operation field of the latched word (`executeAccess_eq`); only a STORE's cell changes (`stepOut_cell_ne`). -/
theorem atMostOneAccessPerTick : Obligations.AtMostOneAccessPerTick := by
  intro s t hstep
  obtain ⟨c, h⟩ := step_next_iff.1 hstep
  have hfields : (decode s.ir).fields = s.irFields := decode_fields s.ir
  refine ⟨tickAccess_of_fetchTick h, fun hx hop => ?_, fun hx hop => ?_, fun hx hio => ?_, ?_,
    fun hwf hv l sl hsl hne => stepOut_cell_ne h hwf hv hsl hne⟩
  · rw [tickAccess_of_executeTick h hx, executeAccess_of_op_le_six (hfields ▸ hop), hfields]
  · rw [tickAccess_of_executeTick h hx, executeAccess_of_opStore (hfields ▸ hop), hfields]
  · rw [tickAccess_of_executeTick h hx, executeAccess_of_isIo (hfields ▸ hio)]
  · rintro (hx | hx)
    · exact tickAccess_of_idleTick h hx
    · exact tickAccess_of_haltedTick h hx

end Sys2Proof.Machine
end

section
/-! PROOF. The signed reading by its sign bit (40_word_codec.md R111): bit 23 of a word is the vector's `msb`, on which
`BitVec.toInt` splits. -/

namespace Sys2Proof.Machine

theorem toSigned_of_bit23_clear {w : Word} (h : w.getLsbD 23 = false) : toSigned w = (w.toNat : Int) := by
  have hmsb : w.msb = false := (BitVec.msb_eq_getLsbD_last w).trans h
  rw [toSigned_eq_toInt, BitVec.toInt_eq_msb_cond, hmsb, if_neg Bool.false_ne_true]

theorem toSigned_of_bit23_set {w : Word} (h : w.getLsbD 23 = true) : toSigned w = (w.toNat : Int) - 2 ^ 24 := by
  have hmsb : w.msb = true := (BitVec.msb_eq_getLsbD_last w).trans h
  rw [toSigned_eq_toInt, BitVec.toInt_eq_msb_cond, if_pos hmsb]
  norm_cast

/-- The magnitude of R111, the complement within 24 bits plus one, is `2^24` minus the word. -/
theorem complement_add_one_eq (w : Word) : ((~~~w).toNat : Int) + 1 = 2 ^ 24 - (w.toNat : Int) := by
  have := w.isLt
  rw [BitVec.toNat_not]
  omega

theorem toSigned_neg_iff (w : Word) : toSigned w < 0 ↔ w.getLsbD 23 = true := by
  have hmsb : w.msb = w.getLsbD 23 := BitVec.msb_eq_getLsbD_last w
  rw [toSigned_eq_toInt, ← hmsb, BitVec.msb_eq_toInt, decide_eq_true_iff]

/-- Settles O8: the two readings by bit 23 (`toSigned_of_bit23_clear`, `toSigned_of_bit23_set`), the second as a
complement (`complement_add_one_eq`); the range is `toSigned_bounds`, the four corner words are evaluated. -/
theorem toSignedIsTwosComplement : Obligations.ToSignedIsTwosComplement := by
  refine ⟨fun _ => toSigned_of_bit23_clear, fun w h => ⟨?_, toSigned_of_bit23_set h, (toSigned_neg_iff w).2 h⟩,
    fun w => ?_, by decide⟩
  · rw [toSigned_of_bit23_set h, complement_add_one_eq, neg_sub]
  · have ⟨hlo, hhi⟩ := toSigned_bounds w
    exact ⟨by omega, by omega⟩

end Sys2Proof.Machine
end

section
/-! PROOF. The four kinds of tick (41_engine_cycle.md R132, R135, R136): the kinds exclude each other, a step that goes on
is of one of them, and what it then answers. -/

namespace Sys2Proof.Machine

/-- The rotation written out, REV as a sum (20_memory.md R52). -/
theorem drumStep_eq (s : State) :
    drumStep s =
      { s with
        cur := (s.cur + 1) % s.cfg.nSlots
        rev := s.rev + if (s.cur + 1) % s.cfg.nSlots = 0 then 1 else 0 } := by
  simp only [add_ite, add_zero]
  rfl

theorem stepOut_of_haltedTick {s : State} (hx : s.HaltedTick) : stepOut s = .next ⟨drumStep s, false⟩ :=
  stepOut_halted hx.1 hx.2

theorem stepOut_of_idleTick {s : State} (hx : s.IdleTick) : stepOut s = .next ⟨drumStep s, false⟩ := by
  obtain ⟨hf, hh, ⟨ha, hal⟩ | ⟨ha, hal⟩⟩ := hx
  · rw [stepOut_fetchPhase hf hh ha, fetchPhase_idle hal]
  · rw [stepOut_executePhase hf hh ha, executePhase_idle hal]

/-- Settles O39: the halted step is the rotation (`stepOut_of_haltedTick`), written out by `drumStep_eq`, and has no
access (`tickAccess_of_haltedTick`). -/
theorem haltedTickOnlyRotates : Obligations.HaltedTickOnlyRotates := by
  intro s hx
  have h := stepOut_of_haltedTick hx
  exact ⟨tickAccess_of_haltedTick h hx, by rw [h, drumStep_eq]⟩

/-- Settles O40: the idle step is the rotation in either phase (`stepOut_of_idleTick`), written out by `drumStep_eq`, and
has no access (`tickAccess_of_idleTick`). -/
theorem idleTickOnlyRotates : Obligations.IdleTickOnlyRotates := by
  intro s hx
  have h := stepOut_of_idleTick hx
  exact ⟨tickAccess_of_idleTick h hx, by rw [h, drumStep_eq]⟩

section
variable {s : State}

/-- A halted tick is none of the others: they all have HALT clear. -/
theorem not_haltedTick_of_running (hh : s.halt = false) : ¬ s.HaltedTick :=
  fun hx => Bool.false_ne_true (hh.symm.trans hx.2)

/-- In the fetch phase the one alignment test tells idle from fetch. -/
theorem not_idleTick_of_fetchTick (hx : s.FetchTick) : ¬ s.IdleTick := by
  obtain ⟨-, -, ha, hal⟩ := hx
  simp [ha, hal]

/-- In the execute phase the one alignment test tells idle from execute. -/
theorem not_idleTick_of_executeTick (hx : s.ExecuteTick) : ¬ s.IdleTick := by
  obtain ⟨-, -, ha, hal⟩ := hx
  simp [ha, hal]

/-- AWAIT tells the phases apart. -/
theorem not_executeTick_of_fetchTick (hx : s.FetchTick) : ¬ s.ExecuteTick := by
  obtain ⟨-, -, ha, -⟩ := hx
  simp [ha]

end

section
variable {s : State} {o : StepOut} (h : stepOut s = .next o)
include h

/-- Inversion of the step by the kind of tick, read off the state before: `stepOut_next` with each case's conditions
gathered into its kind. -/
theorem stepOut_next_kinds :
    (s.HaltedTick ∧ o = ⟨drumStep s, false⟩) ∨ (s.IdleTick ∧ o = ⟨drumStep s, false⟩) ∨
    (s.FetchTick ∧ o = ⟨latch (drumStep s) (s.cell s.fetchLine (drumStep s).cur), false⟩) ∨
    (s.ExecuteTick ∧ ∃ u, exec (decode s.ir) (drumStep s) = .next u ∧ o = ⟨endExecute u, true⟩) := by
  obtain ⟨hf, hcase⟩ := stepOut_next h
  cases hcase with
  | halted hh => exact .inl ⟨⟨hf, hh⟩, rfl⟩
  | idle hh hi => exact .inr (.inl ⟨⟨hf, hh, hi.symm⟩, rfl⟩)
  | fetch hh ha hal hl => exact .inr (.inr (.inl ⟨⟨hf, hh, ha, hal⟩, rfl⟩))
  | execute hh ha hal u hu => exact .inr (.inr (.inr ⟨⟨hf, hh, ha, hal⟩, u, hu, rfl⟩))

theorem stepOut_next_of_fetchTick (hx : s.FetchTick) :
    o = ⟨latch (drumStep s) (s.cell s.fetchLine (drumStep s).cur), false⟩ := by
  rcases stepOut_next_kinds h with ⟨hx', -⟩ | ⟨hx', -⟩ | ⟨-, ho⟩ | ⟨hx', -⟩
  · exact absurd hx' (not_haltedTick_of_running hx.2.1)
  · exact absurd hx' (not_idleTick_of_fetchTick hx)
  · exact ho
  · exact absurd hx' (not_executeTick_of_fetchTick hx)

theorem completed_iff_executeTick : o.completed = true ↔ s.ExecuteTick := by
  rcases stepOut_next_kinds h with ⟨hx, rfl⟩ | ⟨hx, rfl⟩ | ⟨hx, rfl⟩ | ⟨hx, u, -, rfl⟩
  · exact iff_of_false Bool.false_ne_true fun hx' => not_haltedTick_of_running hx'.2.1 hx
  · exact iff_of_false Bool.false_ne_true fun hx' => not_idleTick_of_executeTick hx' hx
  · exact iff_of_false Bool.false_ne_true (not_executeTick_of_fetchTick hx)
  · exact iff_of_true rfl hx

/-- After the rotation nothing of a tick moves the drum (20_memory.md R52): a latch and a meaning keep CUR and REV. -/
theorem stepOut_cur_rev : o.state.cur = (drumStep s).cur ∧ o.state.rev = (drumStep s).rev := by
  rcases stepOut_next_kinds h with ⟨-, rfl⟩ | ⟨-, rfl⟩ | ⟨-, rfl⟩ | ⟨-, u, hu, rfl⟩
  · exact ⟨rfl, rfl⟩
  · exact ⟨rfl, rfl⟩
  · exact ⟨rfl, rfl⟩
  · obtain ⟨-, -, hcur, hrev, -, -⟩ := exec_frame hu
    exact ⟨hcur, hrev⟩

end

/-- Settles O41: some kind of tick holds (`stepOut_next_kinds`) and no two do; `completed` marks the execute
(`completed_iff_executeTick`), the drum turns once (`stepOut_cur_rev`), and a fetch only latches
(`stepOut_next_of_fetchTick`). -/
theorem oneActionPerTick : Obligations.OneActionPerTick := by
  intro s o h
  obtain ⟨hcur, hrev⟩ := stepOut_cur_rev h
  refine ⟨(stepOut_next_kinds h).imp And.left (.imp And.left (.imp And.left And.left)),
    fun ⟨hhalted, _, hrun, _⟩ => not_haltedTick_of_running hrun hhalted,
    fun ⟨hhalted, _, hrun, _⟩ => not_haltedTick_of_running hrun hhalted,
    fun ⟨hhalted, _, hrun, _⟩ => not_haltedTick_of_running hrun hhalted,
    fun ⟨hidle, hfetch⟩ => not_idleTick_of_fetchTick hfetch hidle,
    fun ⟨hidle, hexecute⟩ => not_idleTick_of_executeTick hexecute hidle,
    fun ⟨hfetch, hexecute⟩ => not_executeTick_of_fetchTick hfetch hexecute,
    completed_iff_executeTick h, hcur, hrev.trans (congrArg State.rev (drumStep_eq s)), fun hfetch => ?_⟩
  obtain rfl := stepOut_next_of_fetchTick h hfetch
  exact ⟨rfl, rfl, rfl, rfl, rfl⟩

end Sys2Proof.Machine
end

section
/-! PROOF. Every fatal error by its origin (60_exceptions.md): first of one meaning, then of one tick, then of a poke and of
`fromFraction`. Who raises `OutOfRange` (R202) and who never raises `DomainError` (R203) are read off. -/

namespace Sys2Proof.Machine

/-! ### Which faults a step can raise -/

theorem Fault.rangeError_ofStep (x : Int) : (Fault.rangeError x).OfStep := nofun
theorem Fault.outOfRange_ofStep (l c : Nat) : (Fault.outOfRange l c).OfStep := nofun
theorem Fault.reservedEncoding_ofStep (w : Word) : (Fault.reservedEncoding w).OfStep := nofun

/-! ### Of one meaning -/

theorem encodeChecked_error_ofStep {n : Int} {e : Fault} (h : encodeChecked n = .error e) : e.OfStep := by
  obtain ⟨-, rfl⟩ := encodeChecked_error_iff.1 h
  exact Fault.rangeError_ofStep n

theorem exec_fault_ofStep {i : Instr} {s : State} {e : Fault} (h : exec i s = .fault e) : e.OfStep := by
  rcases exec_fault_cases h with ⟨-, -, rfl⟩ | ⟨-, -, hadd⟩ | ⟨-, -, hsub⟩ | ⟨-, -, rfl⟩
  · exact Fault.outOfRange_ofStep _ _
  · exact encodeChecked_error_ofStep hadd
  · exact encodeChecked_error_ofStep hsub
  · exact Fault.reservedEncoding_ofStep _

/-- Every ALU-class meaning begins with its access, so a missing operand line is `OutOfRange` whatever else it would do
(60_exceptions.md R212). -/
theorem exec_of_missing_line {i : Instr} {s : State} (ha : i.isAlu = true) (hl : s.cfg.nLines ≤ i.fields.oline.toNat) :
    exec i s = .fault (.outOfRange i.fields.oline.toNat s.cur) := by
  have hrow : i.row ≤ 7 := by simpa [Instr.isAlu_eq] using ha
  cases i with
  | load | add | sub | and | xor | rot | beq => exact withOperand_of_le hl
  | store => exact drumWrite_fault_iff.2 ⟨hl, rfl⟩
  | inp | outHalt | outTransmit | outBranch | outDev3 | outDev4to7 | outDev8to15 | outDev16to31 =>
    simp [Instr.row] at hrow
  | reserved10 | reserved11 | reserved12 | reserved13 | reserved14 | reserved15 => simp [Instr.row] at hrow

theorem exec_outOfRange_iff {i : Instr} {s : State} {l c : Nat} :
    exec i s = .fault (.outOfRange l c) ↔
      i.isAlu = true ∧ s.cfg.nLines ≤ l ∧ l = i.fields.oline.toNat ∧ c = s.cur := by
  constructor
  · intro h
    rcases exec_fault_cases h with ⟨ha, hl, he⟩ | ⟨-, -, hadd⟩ | ⟨-, -, hsub⟩ | ⟨-, -, he⟩
    · obtain ⟨rfl, rfl⟩ := Fault.outOfRange.inj he
      exact ⟨ha, hl, rfl, rfl⟩
    · cases (encodeChecked_error_iff.1 hadd).2
    · cases (encodeChecked_error_iff.1 hsub).2
    · cases he
  · rintro ⟨ha, hl, rfl, rfl⟩
    exact exec_of_missing_line ha hl

/-! ### Of one tick -/

/-- A step faults exactly at a fetch of a missing line, or with the fault of the meaning it executes. -/
theorem step_fault_iff_kinds {s : State} {e : Fault} :
    step s = .fault e ↔
      (s.FetchTick ∧ s.cfg.nLines ≤ s.fetchLine ∧ e = .outOfRange s.fetchLine (drumStep s).cur) ∨
      (s.ExecuteTick ∧ exec (decode s.ir) (drumStep s) = .fault e) := by
  rw [step_fault_iff]
  constructor
  · intro h
    obtain ⟨hf, hh, ⟨ha, hal, hl, he⟩ | ⟨ha, hal, he⟩⟩ := stepOut_fault h
    · exact .inl ⟨⟨hf, hh, ha, hal⟩, hl, he⟩
    · exact .inr ⟨⟨hf, hh, ha, hal⟩, he⟩
  · rintro (⟨⟨hf, hh, ha, hal⟩, hl, rfl⟩ | ⟨⟨hf, hh, ha, hal⟩, he⟩)
    · rw [stepOut_fetchPhase hf hh ha]
      exact fetchPhase_outOfRange hal hl
    · rw [stepOut_executePhase hf hh ha]
      exact executePhase_fault hal he

theorem step_fault_ofStep {s : State} {e : Fault} (h : step s = .fault e) : e.OfStep := by
  rcases step_fault_iff_kinds.1 h with ⟨-, -, rfl⟩ | ⟨-, he⟩
  · exact Fault.outOfRange_ofStep _ _
  · exact exec_fault_ofStep he

theorem decode_isAlu_iff (s : State) : (decode s.ir).isAlu = true ↔ s.irFields.isIo = false := by
  rw [Instr.isAlu, decode_fields, Bool.not_eq_true']
  rfl

/-- `exec_outOfRange_iff` carried to the tick: the two accesses that can name a missing line. -/
theorem step_outOfRange_iff {s : State} {l c : Nat} :
    step s = .fault (.outOfRange l c) ↔
      c = (drumStep s).cur ∧ s.cfg.nLines ≤ l ∧
        (s.FetchTick ∧ l = s.fetchLine ∨ s.ExecuteTick ∧ s.irFields.isIo = false ∧ l = s.irFields.oline.toNat) := by
  rw [step_fault_iff_kinds, exec_outOfRange_iff, Fault.outOfRange.injEq, decode_isAlu_iff, decode_fields, drumStep_cfg]
  constructor
  · rintro (⟨hx, hl, rfl, rfl⟩ | ⟨hx, hio, hl, hol, rfl⟩)
    · exact ⟨rfl, hl, .inl ⟨hx, rfl⟩⟩
    · exact ⟨rfl, hl, .inr ⟨hx, hio, hol⟩⟩
  · rintro ⟨rfl, hl, ⟨hx, rfl⟩ | ⟨hx, hio, hol⟩⟩
    · exact .inl ⟨hx, hl, rfl, rfl⟩
    · exact .inr ⟨hx, hio, hl, hol, rfl⟩

/-- A line number is five bits, so the full drum of 32 lines has them all. -/
theorem step_ne_outOfRange_of_32_lines {s : State} (h32 : s.cfg.nLines = 32) (l c : Nat) :
    step s ≠ .fault (.outOfRange l c) := by
  intro h
  obtain ⟨-, hl, ⟨-, hfetch⟩ | ⟨-, -, hop⟩⟩ := step_outOfRange_iff.1 h
  · have hlt : s.fetchLine < 32 := s.irFields.nline.isLt
    omega
  · have hlt : s.irFields.oline.toNat < 32 := s.irFields.oline.isLt
    omega

/-! ### Of a poke -/

theorem validate_error_iff {x : Int} {e : Fault} :
    validate x = .error e ↔ (x < 0 ∨ 2 ^ 24 - 1 < x) ∧ e = .rangeError x := by
  unfold validate
  split
  · simp only [reduceCtorEq, false_iff]
    omega
  · simp only [Except.error.injEq, eq_comm (a := e), iff_and_self]
    omega

/-- Why a poke faults, before the start only: the geometry is checked first, then the value (60_exceptions.md R212). -/
theorem poke_fault_iff {s : State} {l sl : Nat} {v : Int} {e : Fault} :
    poke s l sl v = .fault e ↔
      s.started = false ∧
        ((s.cfg.nLines ≤ l ∨ s.cfg.nSlots ≤ sl) ∧ e = .outOfRange l sl ∨
          (l < s.cfg.nLines ∧ sl < s.cfg.nSlots) ∧ validate v = .error e) := by
  unfold poke raise
  split
  · next hs => simp [hs]
  · next hs =>
    split
    · next hg =>
      have hout : ¬ (l < s.cfg.nLines ∧ sl < s.cfg.nSlots) := by omega
      simp [hs, hg, hout, eq_comm (a := e)]
    · next hg =>
      have hin : l < s.cfg.nLines ∧ sl < s.cfg.nSlots := by omega
      cases hv : validate v <;> simp [hs, hg, hin]

theorem poke_fault_ofStep {s : State} {l sl : Nat} {v : Int} {e : Fault} (h : poke s l sl v = .fault e) : e.OfStep := by
  obtain ⟨-, ⟨-, rfl⟩ | ⟨-, hv⟩⟩ := poke_fault_iff.1 h
  · exact Fault.outOfRange_ofStep l sl
  · obtain ⟨-, rfl⟩ := validate_error_iff.1 hv
    exact Fault.rangeError_ofStep v

theorem poke_outOfRange_iff {s : State} (hs : s.started = false) {l sl l' sl' : Nat} {v : Int} :
    poke s l sl v = .fault (.outOfRange l' sl') ↔ l' = l ∧ sl' = sl ∧ (s.cfg.nLines ≤ l ∨ s.cfg.nSlots ≤ sl) := by
  simp only [poke_fault_iff, validate_error_iff, hs, Fault.outOfRange.injEq, reduceCtorEq, and_false, or_false, true_and]
  rw [and_comm, and_assoc]

/-! ### Of `fromFraction` -/

/-- Whatever the rounding, what `encodeChecked` makes of an argument inside the interval is at worst a `RangeError`. -/
theorem fromFractionWith_domainError_iff {round : Rat → Int} {f q : Rat} :
    fromFractionWith round f = .error (.domainError q) ↔ q = f ∧ (f ≤ -1 ∨ 1 ≤ f) := by
  unfold fromFractionWith
  split
  · next hout => simp [hout, eq_comm]
  · next hin =>
    refine iff_of_false (fun h => ?_) fun h => hin h.2
    exact encodeChecked_error_ofStep h q rfl

/-! ### The statements -/

/-- Settles O14: `fromFraction` by `fromFractionWith_domainError_iff`; a step's fault (`step_fault_ofStep`) and a poke's
(`poke_fault_ofStep`) are of the other kinds. -/
theorem domainErrorOnlyFromFraction : Obligations.DomainErrorOnlyFromFraction :=
  ⟨fun _ _ => fromFractionWith_domainError_iff, fun _ q h => step_fault_ofStep h q rfl,
    fun _ _ _ _ q h => poke_fault_ofStep h q rfl⟩

/-- Settles O23: a step's rows by `step_outOfRange_iff`, none of them with 32 lines (`step_ne_outOfRange_of_32_lines`); a
poke's row by `poke_outOfRange_iff`. -/
theorem outOfRangeExactlyAtABadAccess : Obligations.OutOfRangeExactlyAtABadAccess :=
  ⟨fun _ _ _ => step_outOfRange_iff, fun _ l c h32 => step_ne_outOfRange_of_32_lines h32 l c,
    fun _ _ _ _ _ _ hs => poke_outOfRange_iff hs⟩

end Sys2Proof.Machine
end

section
/-! PROOF. A halted machine (70_reset_and_hazards.md, 60_exceptions.md R221): every tick is the halted rotation, which keeps
HALT and the fault status, so the ticks add up to one turn of the drum. -/

namespace Sys2Proof.Machine

/-- A rotation touches neither HALT nor the fault status. -/
theorem turned_haltedTick {s : State} (hx : s.HaltedTick) (k : Nat) : (s.turned k).HaltedTick := hx

theorem ticks_eq_turned_of_haltedTick {s : State} (hcur : s.cur < s.cfg.nSlots) (hx : s.HaltedTick) (k : Nat) :
    ticks k s = s.turned k := by
  induction k with
  | zero => exact (turned_zero hcur).symm
  | succ k ih =>
    calc ticks (k + 1) s = tick (s.turned k) := by rw [ticks_succ_last, ih]
      _ = drumStep (s.turned k) := tick_of_next (stepOut_of_haltedTick (turned_haltedTick hx k))
      _ = s.turned (k + 1) := drumStep_turned s k

/-- Settles O57: the state after `k` ticks by `ticks_eq_turned_of_haltedTick`, still halted by `turned_haltedTick`. -/
theorem haltedMachineOnlyTurnsForEver : Obligations.HaltedMachineOnlyTurnsForEver := by
  intro s k hcur hx
  have hturned := ticks_eq_turned_of_haltedTick hcur hx k
  exact ⟨hturned, hturned ▸ turned_haltedTick hx k⟩

end Sys2Proof.Machine
end

section
/-! PROOF. The Instruction codec (30_encoding.md): fields and words are inverse, an encoding is the word of the truncated
fields, and the rows of the opcode table are disjoint intervals of the top nine bits. -/

namespace Sys2Proof

/-! ### Fields and words -/

@[simp] theorem decodeFields_word (f : Fields) : decodeFields f.word = f := by
  have := f.op.isLt; have := f.oslot.isLt; have := f.oline.isLt; have := f.nslot.isLt; have := f.nline.isLt
  apply Fields.eq_of_toNat <;>
    simp only [decodeFields_op, decodeFields_oslot, decodeFields_oline, decodeFields_nslot, decodeFields_nline,
      Fields.word_toNat] <;> omega

@[simp] theorem word_decodeFields (w : Word) : (decodeFields w).word = w := by
  have := w.isLt
  apply BitVec.eq_of_toNat_eq
  simp only [Fields.word_toNat, decodeFields_op, decodeFields_oslot, decodeFields_oline, decodeFields_nslot,
    decodeFields_nline]
  omega

/-- Truncating a field (30_encoding.md R84) is reading it as a bit vector of the field's width. -/
theorem encodeFields_eq_word (op os ol ns nl : Nat) :
    encodeFields op os ol ns nl =
      Fields.word ⟨BitVec.ofNat 4 op, BitVec.ofNat 5 os, BitVec.ofNat 5 ol, BitVec.ofNat 5 ns, BitVec.ofNat 5 nl⟩ := by
  apply BitVec.eq_of_toNat_eq
  simp only [encodeFields_toNat, Fields.word_toNat, BitVec.toNat_ofNat, Nat.reducePow]

theorem decodeFields_encodeFields (op os ol ns nl : Nat) :
    decodeFields (encodeFields op os ol ns nl) =
      ⟨BitVec.ofNat 4 op, BitVec.ofNat 5 os, BitVec.ofNat 5 ol, BitVec.ofNat 5 ns, BitVec.ofNat 5 nl⟩ := by
  rw [encodeFields_eq_word, decodeFields_word]

theorem encodeFields_mod (op os ol ns nl : Nat) :
    encodeFields op os ol ns nl = encodeFields (op % 16) (os % 32) (ol % 32) (ns % 32) (nl % 32) := by
  apply BitVec.eq_of_toNat_eq
  simp only [encodeFields_toNat, Nat.mod_mod]

theorem decodeFields_bijective : Function.Bijective decodeFields :=
  Function.bijective_iff_has_inverse.2 ⟨Fields.word, word_decodeFields, decodeFields_word⟩

/-! ### Instructions and words -/

theorem decode_encode {i : Instr} (h : i.WellFormed = true) : decode (encode i) = i := by
  rw [decode, encode, decodeFields_word, Instr.ofFields_fields h]

@[simp] theorem encode_decode (w : Word) : encode (decode w) = w := by
  rw [encode, decode_fields, word_decodeFields]

/-- The class bit is the top bit of the opcode, which is the top bit of the word. -/
theorem decodeFields_isIo (w : Word) : (decodeFields w).isIo = w.getLsbD 23 := by
  have hop : (decodeFields w).isIo = (w.toNat / 2 ^ 20 % 2 ^ 4).testBit 3 :=
    congrArg (Nat.testBit · 3) (decodeFields_op w)
  rw [hop, Nat.testBit_mod_two_pow, Nat.testBit_div_two_pow]
  rfl

theorem decode_isAlu (w : Word) : (decode w).isAlu = !w.getLsbD 23 := by
  rw [Instr.isAlu, decode_fields, decodeFields_isIo]

/-! ### The opcode table -/

/-- Every instruction's word lies in its row: the per-instruction facts gathered. -/
theorem Instr.encodesInRow (i : Instr) : Laws.EncodesInRow.Statement i := by
  cases i with
  | load => exact Laws.EncodesInRow.load _ _ _ _
  | add => exact Laws.EncodesInRow.add _ _ _ _
  | sub => exact Laws.EncodesInRow.sub _ _ _ _
  | and => exact Laws.EncodesInRow.and _ _ _ _
  | xor => exact Laws.EncodesInRow.xor _ _ _ _
  | rot => exact Laws.EncodesInRow.rot _ _ _ _
  | beq => exact Laws.EncodesInRow.beq _ _ _ _
  | store => exact Laws.EncodesInRow.store _ _ _ _
  | inp => exact Laws.EncodesInRow.inp _ _ _ _
  | outHalt => exact Laws.EncodesInRow.outHalt _ _ _
  | outTransmit => exact Laws.EncodesInRow.outTransmit _ _ _
  | outBranch => exact Laws.EncodesInRow.outBranch _ _ _
  | outDev3 => exact Laws.EncodesInRow.outDev3 _ _ _
  | outDev4to7 => exact Laws.EncodesInRow.outDev4to7 _ _ _ _
  | outDev8to15 => exact Laws.EncodesInRow.outDev8to15 _ _ _ _
  | outDev16to31 => exact Laws.EncodesInRow.outDev16to31 _ _ _ _
  | reserved10 => exact Laws.EncodesInRow.reserved10 _ _ _ _
  | reserved11 => exact Laws.EncodesInRow.reserved11 _ _ _ _
  | reserved12 => exact Laws.EncodesInRow.reserved12 _ _ _ _
  | reserved13 => exact Laws.EncodesInRow.reserved13 _ _ _ _
  | reserved14 => exact Laws.EncodesInRow.reserved14 _ _ _ _
  | reserved15 => exact Laws.EncodesInRow.reserved15 _ _ _ _

theorem Instr.row_lt (i : Instr) : i.row < 22 := by
  cases i <;> exact of_decide_eq_true rfl

theorem exists_opcodeRow {n : Nat} (hn : n < 22) : ∃ r ∈ opcodeTable, r.row = n := by
  have h : ∀ n < 22, ∃ r ∈ opcodeTable, r.row = n := by decide
  exact h n hn

/-- A row's fixed bits reach up to bit 23, so it matches an interval of values of the opcode and device bits. -/
theorem bits_eq_value_iff {r : OpcodeRow} (hr : r ∈ opcodeTable) (w : Word) :
    bits w r.hi r.lo = r.value ↔
      r.value * 2 ^ (r.lo - 15) ≤ bits w 23 15 ∧ bits w 23 15 < (r.value + 1) * 2 ^ (r.lo - 15) := by
  have hshape : ∀ r ∈ opcodeTable, r.hi = 23 ∧ 15 ≤ r.lo ∧ r.lo - 15 ≤ 5 := by decide
  obtain ⟨hhi, hlo, hk⟩ := hshape r hr
  have hbits : bits w r.hi r.lo = bits w 23 15 / 2 ^ (r.lo - 15) := by
    rw [← word_decodeFields w, hhi, bits_word_dev, ← bits_word_from _ _ hk, Nat.add_sub_cancel' hlo]
  rw [hbits, Nat.div_eq_iff (by positivity)]
  have : 0 < 2 ^ (r.lo - 15) := by positivity
  rw [Nat.add_one_mul]
  omega

/-- Any two rows' intervals are apart, so a word matches one row at most. -/
theorem opcodeRow_unique {r q : OpcodeRow} (hr : r ∈ opcodeTable) (hq : q ∈ opcodeTable) {w : Word}
    (hrw : bits w r.hi r.lo = r.value) (hqw : bits w q.hi q.lo = q.value) : r = q := by
  have hapart : ∀ r ∈ opcodeTable, ∀ q ∈ opcodeTable, r = q ∨
      (r.value + 1) * 2 ^ (r.lo - 15) ≤ q.value * 2 ^ (q.lo - 15) ∨
      (q.value + 1) * 2 ^ (q.lo - 15) ≤ r.value * 2 ^ (r.lo - 15) := by decide
  obtain ⟨hr1, hr2⟩ := (bits_eq_value_iff hr w).1 hrw
  obtain ⟨hq1, hq2⟩ := (bits_eq_value_iff hq w).1 hqw
  rcases hapart r hr q hq with h | h | h
  · exact h
  · exact absurd (hr2.trans_le h) (Nat.not_lt.2 hq1)
  · exact absurd (hq2.trans_le h) (Nat.not_lt.2 hr1)

theorem bits_of_decode_row {w : Word} {r : OpcodeRow} (hr : r ∈ opcodeTable) (h : r.row = (decode w).row) :
    bits w r.hi r.lo = r.value := by
  have hw := (decode w).encodesInRow (decode_wellFormed w) r hr h
  rwa [encode_decode] at hw

theorem bits_eq_value_iff_decode_row {r : OpcodeRow} (hr : r ∈ opcodeTable) (w : Word) :
    bits w r.hi r.lo = r.value ↔ (decode w).row = r.row := by
  refine ⟨fun hrw => ?_, fun h => bits_of_decode_row hr h.symm⟩
  obtain ⟨q, hq, hrow⟩ := exists_opcodeRow (decode w).row_lt
  rw [opcodeRow_unique hr hq hrw (bits_of_decode_row hq hrow), hrow]

/-! ### The ignored operand line -/

/-- An I/O-class meaning is chosen by opcode and device, neither of which is the operand line (30_encoding.md R89). -/
theorem exec_ofFields_oline {f : Fields} (hio : f.isIo = true) (ol : Field5) (s : Machine.State) :
    Machine.exec (Instr.ofFields { f with oline := ol }) s = Machine.exec (Instr.ofFields f) s := by
  obtain ⟨op, os, ol', ns, nl⟩ := f
  have hop : 8 ≤ op.toNat := (Fields.isIo_iff _).1 hio
  rcases op_cases op with rfl | rfl | rfl | rfl | rfl | rfl | rfl | rfl | rfl | rfl | rfl | rfl | rfl | rfl | rfl | rfl
  iterate 8 exact absurd hop (by decide)
  case inr.inr.inr.inr.inr.inr.inr.inr.inr.inl =>
    change Machine.exec (Instr.ofOutFields ⟨9, os, ol, ns, nl⟩) s = Machine.exec (Instr.ofOutFields ⟨9, os, ol', ns, nl⟩) s
    unfold Instr.ofOutFields Fields.dev
    split_ifs <;> rfl
  all_goals rfl

/-! ### The statements -/

/-- Settles O1: the two inverse laws (`word_decodeFields`, `decodeFields_word`), and `decodeFields_encodeFields`, which
holds of naturals of any size. -/
theorem fieldsAndWordsAreInverse : Obligations.FieldsAndWordsAreInverse :=
  ⟨word_decodeFields, decodeFields_word, fun op os ol ns nl _ _ _ _ _ => decodeFields_encodeFields op os ol ns nl,
    decodeFields_bijective⟩

/-- Settles O2: the fields come back from the word (`decodeFields_word`), and the opcode map from the fields of a
well-formed instruction (`Instr.ofFields_fields`). -/
theorem decodeOfEncodeIsTheInstruction : Obligations.DecodeOfEncodeIsTheInstruction :=
  fun _ => decode_encode

/-- Settles O3, by `decode_wellFormed` and `encode_decode`. -/
theorem everyWordIsOneWellFormedInstruction : Obligations.EveryWordIsOneWellFormedInstruction :=
  fun w => ⟨decode_wellFormed w, encode_decode w⟩

/-- Settles O4: what is decoded are the naturals as bit vectors (`decodeFields_encodeFields`), whose values are residues. -/
theorem encodingTruncatesEachField : Obligations.EncodingTruncatesEachField := by
  intro op os ol ns nl
  rw [decodeFields_encodeFields]
  exact ⟨encodeFields_mod op os ol ns nl, BitVec.toNat_ofNat op 4, BitVec.toNat_ofNat os 5, BitVec.toNat_ofNat ol 5,
    BitVec.toNat_ofNat ns 5, BitVec.toNat_ofNat nl 5⟩

/-- Settles O5: the decoder's row matches (`bits_of_decode_row`), and no second row can (`opcodeRow_unique`). -/
theorem tableRowSelectsTheDecodedInstruction : Obligations.TableRowSelectsTheDecodedInstruction :=
  fun w _ hr => bits_eq_value_iff_decode_row hr w

/-- Settles O6: the eight words are decoded by evaluation. -/
theorem writtenOutWordsDecode : Obligations.WrittenOutWordsDecode := by
  unfold Obligations.WrittenOutWordsDecode
  decide

/-- Settles O7, by `decode_isAlu` and `exec_ofFields_oline`. -/
theorem topBitIsTheClassAndIoIgnoresTheLine : Obligations.TopBitIsTheClassAndIoIgnoresTheLine :=
  ⟨decode_isAlu, fun _ ol s hio => exec_ofFields_oline hio ol s⟩

end Sys2Proof
end

section
/-! PROOF. The drum's data (20_memory.md): two canonical lists that read the same are equal, so writes commute as data; a
cell reads as its latest write; what a poke answers. -/

namespace Sys2Proof.Machine

/-! ### Canonical lists -/

/-- Below a canonical list's first key nothing is listed. -/
theorem Memory.keysAbove_of_wf_cons {j k : Nat} {w : Word} {m : Memory} (hjk : j < k)
    (h : Memory.wf ((k, w) :: m) = true) : Memory.keysAbove j ((k, w) :: m) = true := by
  obtain ⟨-, habove, -⟩ := Memory.wf_cons.1 h
  exact Memory.keysAbove_cons.2 ⟨hjk, Memory.keysAbove_mono hjk.le habove⟩

/-- A list's first cell distinguishes it from every list whose keys lie above that cell. -/
theorem Memory.read_ne_of_keysAbove {k : Nat} {w : Word} {m n : Memory} (h : Memory.wf ((k, w) :: m) = true)
    (hn : Memory.keysAbove k n = true) : Memory.read ((k, w) :: m) k ≠ Memory.read n k := by
  obtain ⟨hw, -, -⟩ := Memory.wf_cons.1 h
  rwa [Memory.read_cons, if_pos rfl, Memory.read_of_keysAbove le_rfl hn]

/-- The canonical form is determined by what it reads as. -/
theorem Memory.ext_read {m n : Memory} (hm : m.wf = true) (hn : n.wf = true) (h : ∀ a, m.read a = n.read a) : m = n := by
  induction m generalizing n with
  | nil =>
    cases n with
    | nil => rfl
    | cons q n => exact absurd (h q.1).symm (Memory.read_ne_of_keysAbove hn rfl)
  | cons p m ih =>
    obtain ⟨k, w⟩ := p
    cases n with
    | nil => exact absurd (h k) (Memory.read_ne_of_keysAbove hm rfl)
    | cons q n =>
      obtain ⟨k', w'⟩ := q
      rcases Nat.lt_trichotomy k k' with hlt | rfl | hgt
      · exact absurd (h k) (Memory.read_ne_of_keysAbove hm (Memory.keysAbove_of_wf_cons hlt hn))
      · obtain ⟨-, habove, hm'⟩ := Memory.wf_cons.1 hm
        obtain ⟨-, habove', hn'⟩ := Memory.wf_cons.1 hn
        have hw : w = w' := by simpa [Memory.read_cons] using h k
        have htail : ∀ a, Memory.read m a = Memory.read n a := by
          intro a
          by_cases ha : k = a
          · rw [Memory.read_of_keysAbove ha.ge habove, Memory.read_of_keysAbove ha.ge habove']
          · simpa [Memory.read_cons, ha] using h a
        rw [hw, ih hm' hn' htail]
      · exact absurd (h k').symm (Memory.read_ne_of_keysAbove hn (Memory.keysAbove_of_wf_cons hgt hm))

theorem Memory.write_comm {m : Memory} (hm : m.wf = true) {a b : Nat} (hab : a ≠ b) (v v' : Word) :
    (m.write a v).write b v' = (m.write b v').write a v := by
  have hwa := Memory.wf_write hm a v
  have hwb := Memory.wf_write hm b v'
  refine Memory.ext_read (Memory.wf_write hwa b v') (Memory.wf_write hwb a v) fun c => ?_
  rw [Memory.read_write hwa, Memory.read_write hm, Memory.read_write hwb, Memory.read_write hm]
  split_ifs with hcb hca
  · exact absurd (hca.symm.trans hcb) hab
  · rfl
  · rfl
  · rfl

theorem Memory.write_write {m : Memory} (hm : m.wf = true) (a : Nat) (v v' : Word) :
    (m.write a v).write a v' = m.write a v' := by
  have hwa := Memory.wf_write hm a v
  refine Memory.ext_read (Memory.wf_write hwa a v') (Memory.wf_write hm a v') fun c => ?_
  rw [Memory.read_write hwa, Memory.read_write hm, Memory.read_write hm]
  split_ifs <;> rfl

/-! ### Cell writes -/

theorem State.setCell_comm {s : State} (hm : s.drum.wf = true) {l sl l' sl' : Nat} (hsl : sl < 32) (hsl' : sl' < 32)
    (hne : (l, sl) ≠ (l', sl')) (v v' : Word) :
    (s.setCell l sl v).setCell l' sl' v' = (s.setCell l' sl' v').setCell l sl v := by
  have hkey : cellKey l sl ≠ cellKey l' sl' := by
    intro hk
    obtain ⟨rfl, rfl⟩ := (cellKey_inj hsl hsl').1 hk
    exact hne rfl
  exact congrArg (fun d => { s with drum := d }) (Memory.write_comm hm hkey v v')

theorem State.setCell_setCell {s : State} (hm : s.drum.wf = true) (l sl : Nat) (v v' : Word) :
    (s.setCell l sl v).setCell l sl v' = s.setCell l sl v' :=
  congrArg (fun d => { s with drum := d }) (Memory.write_write hm _ v v')

/-- A list of cell writes, first to last. -/
def State.setCells (s : State) (ws : List ((Nat × Nat) × Word)) : State :=
  ws.foldl (fun s p => s.setCell p.1.1 p.1.2 p.2) s

theorem State.setCells_append_singleton (s : State) (ws : List ((Nat × Nat) × Word)) (p : (Nat × Nat) × Word) :
    s.setCells (ws ++ [p]) = (s.setCells ws).setCell p.1.1 p.1.2 p.2 :=
  List.foldl_concat _ s p ws

theorem State.setCells_wf {s : State} (hm : s.drum.wf = true) (ws : List ((Nat × Nat) × Word)) :
    (s.setCells ws).drum.wf = true := by
  induction ws generalizing s with
  | nil => exact hm
  | cons p ws ih => exact ih (Memory.wf_write hm _ _)

/-- The latest write to a cell is the first one found from the end of the list. -/
theorem State.cell_setCells {s : State} (hm : s.drum.wf = true) (ws : List ((Nat × Nat) × Word))
    (hws : ∀ p ∈ ws, p.1.2 < 32) (l : Nat) {sl : Nat} (hsl : sl < 32) :
    (s.setCells ws).cell l sl =
      ((ws.reverse.find? fun p => decide (p.1 = (l, sl))).map Prod.snd).getD (s.cell l sl) := by
  induction ws using List.reverseRecOn with
  | nil => rfl
  | append_singleton ws p ih =>
    have hp : p.1.2 < 32 := hws p (by simp)
    have hloc : cellKey l sl = cellKey p.1.1 p.1.2 ↔ p.1 = (l, sl) := by
      rw [cellKey_inj hsl hp, Prod.ext_iff, eq_comm, @eq_comm _ sl]
    rw [State.setCells_append_singleton, State.cell_setCell (State.setCells_wf hm ws), ih fun q hq => hws q (by simp [hq])]
    by_cases h : p.1 = (l, sl) <;> simp [hloc, h]

/-! ### Pokes -/

theorem poke_next_iff {s t : State} {l sl : Nat} {v : Int} :
    poke s l sl v = .next t ↔
      s.started = false ∧ l < s.cfg.nLines ∧ sl < s.cfg.nSlots ∧ ∃ w, validate v = .ok w ∧ t = s.setCell l sl w := by
  refine ⟨poke_next, ?_⟩
  rintro ⟨hs, hl, hsl, w, hv, rfl⟩
  have hin : ¬ (s.cfg.nLines ≤ l ∨ s.cfg.nSlots ≤ sl) := by omega
  simp [poke, hs, hin, hv]

/-- Two pokes that succeed, to different locations: each also succeeds after the other, with one end. -/
theorem poke_comm {s : State} (hv : s.cfg.Valid) (hm : s.drum.wf = true) {l sl l' sl' : Nat} (hne : (l, sl) ≠ (l', sl'))
    {v v' : Int} {t t' : State} (h : poke s l sl v = .next t) (h' : poke s l' sl' v' = .next t') :
    ∃ u, poke t l' sl' v' = .next u ∧ poke t' l sl v = .next u := by
  obtain ⟨hs, hl, hsl, w, hw, rfl⟩ := poke_next h
  obtain ⟨-, hl', hsl', w', hw', rfl⟩ := poke_next h'
  have hcomm := State.setCell_comm hm (l := l) (l' := l') (show sl < 32 by omega) (show sl' < 32 by omega) hne w w'
  exact ⟨_, poke_next_iff.2 ⟨hs, hl', hsl', w', hw', rfl⟩, poke_next_iff.2 ⟨hs, hl, hsl, w, hw, hcomm⟩⟩

/-- A poke that succeeds after another would have succeeded without it: its conditions do not read the drum. -/
theorem poke_before {s t u : State} {l sl l' sl' : Nat} {v v' : Int} (h : poke s l sl v = .next t)
    (hu : poke t l' sl' v' = .next u) : ∃ t', poke s l' sl' v' = .next t' := by
  obtain ⟨hs, -, -, w, -, rfl⟩ := poke_next h
  obtain ⟨-, hl', hsl', w', hw', -⟩ := poke_next hu
  exact ⟨_, poke_next_iff.2 ⟨hs, hl', hsl', w', hw', rfl⟩⟩

theorem poke_poke {s t t' : State} (hm : s.drum.wf = true) {l sl : Nat} {v v' : Int} (h : poke s l sl v = .next t)
    (h' : poke s l sl v' = .next t') : poke t l sl v' = .next t' := by
  obtain ⟨hs, hl, hsl, w, -, rfl⟩ := poke_next h
  obtain ⟨-, -, -, w', hw', rfl⟩ := poke_next h'
  exact poke_next_iff.2 ⟨hs, hl, hsl, w', hw', (State.setCell_setCell hm l sl w w').symm⟩

/-! ### The statements -/

/-- Settles O17: the reset content is 0 in every cell, and `State.cell_setCells` follows the writes. -/
theorem readsReturnTheLatestWrite : Obligations.ReadsReturnTheLatestWrite :=
  fun c ws l _ hws hsl => State.cell_setCells (s := State.create c) rfl ws hws l hsl

/-- Settles O18, by induction on the two lists together (`Memory.ext_read`). -/
theorem equalDrumsAreEqualData : Obligations.EqualDrumsAreEqualData :=
  fun _ _ => Memory.ext_read

/-- Settles O19: the refusal is the first test; the two faults are read off `poke_fault_iff`, the success off
`poke_next_iff`. -/
theorem pokeWritesOneCellBeforeTheStart : Obligations.PokeWritesOneCellBeforeTheStart := by
  intro s l sl v
  refine ⟨fun hs => if_pos hs, fun hs hg => ?_, fun hs hl hsl hv => ?_, fun hs hl hsl h0 hv => ?_⟩
  · exact poke_fault_iff.2 ⟨hs, .inl ⟨hg, rfl⟩⟩
  · exact poke_fault_iff.2 ⟨hs, .inr ⟨⟨hl, hsl⟩, validate_error_iff.2 ⟨hv, rfl⟩⟩⟩
  · exact poke_next_iff.2 ⟨hs, hl, hsl, _, validate_ok_iff.2 ⟨h0, hv, rfl⟩, rfl⟩

/-- Settles O20: pokes by `poke_comm`, `poke_before` and `poke_poke`, cell writes by `State.setCell_comm` and
`State.setCell_setCell`, which are equalities of canonical lists. -/
theorem pokesCommuteAndTheLastWins : Obligations.PokesCommuteAndTheLastWins := by
  refine ⟨fun _ _ _ _ _ _ _ _ _ hv hm hne => poke_comm hv hm hne, fun s t u l sl l' sl' v v' hv hm hne h hu => ?_,
    fun _ _ _ _ _ _ _ hm => poke_poke hm, fun _ _ _ _ _ v v' hm hsl hsl' hne => State.setCell_comm hm hsl hsl' hne v v',
    fun _ l sl v v' hm => State.setCell_setCell hm l sl v v'⟩
  obtain ⟨t', h'⟩ := poke_before h hu
  obtain ⟨u', hu', hend⟩ := poke_comm hv hm hne h h'
  cases hu.symm.trans hu'
  exact ⟨t', h', hend⟩

end Sys2Proof.Machine
end

section
/-! PROOF. The invariant (10_state.md R35): it holds of the machine as created, and each of the updates a tick or a poke is
made of keeps it. -/

namespace Sys2Proof.Machine

/-! ### Reset -/

theorem create_pc (c : Config) : (State.create c).pc = (0, 0) := by
  simp [State.pc, State.fetchLine, State.fetchSlot, State.irFields]

theorem create_inv {c : Config} (hc : c.Valid) : (State.create c).Inv where
  cfgValid := hc
  curInRange := hc.2.2.1
  drumCanonical := rfl
  drumInGeometry := nofun
  haltNotAwaiting := nofun
  branchPending := nofun
  faultOfStep := nofun

theorem defaultConfig_valid : defaultConfig.Valid := by decide

/-! ### The updates -/

section
variable {s : State} (h : s.Inv)
include h

theorem State.Inv.drumStep : (drumStep s).Inv :=
  { h with curInRange := Nat.mod_lt _ (Nat.zero_lt_of_lt h.curInRange) }

theorem State.Inv.recordFault {e : Fault} (he : e.OfStep) : (s.recordFault e).Inv :=
  { h with
    faultOfStep := by
      rintro f ⟨⟩
      exact he }

/-- A write to a cell that exists lists no key outside the geometry (20_memory.md R63). -/
theorem State.Inv.setCell {l sl : Nat} (hl : l < s.cfg.nLines) (hsl : sl < s.cfg.nSlots) (v : Word) :
    (s.setCell l sl v).Inv :=
  { h with
    drumCanonical := Memory.wf_write h.drumCanonical _ v
    drumInGeometry := by
      intro p hp
      rcases Memory.mem_write hp with hp | rfl
      · exact h.drumInGeometry p hp
      · have hslots : s.cfg.nSlots ≤ 32 := h.cfgValid.2.2.2.1
        rw [cellKey_line (hsl.trans_le hslots), cellKey_slot (hsl.trans_le hslots)]
        exact ⟨hl, hsl⟩ }

theorem State.Inv.latch (hh : s.halt = false) (w : Word) : (latch s w).Inv :=
  { h with
    haltNotAwaiting := fun hh' => absurd (hh.symm.trans hh') Bool.false_ne_true
    branchPending := nofun }

/-- In the execute phase branch pending is clear. -/
theorem State.Inv.bp_of_await (ha : s.await = true) : s.bp = false := by
  rw [← Bool.not_eq_true]
  intro hbp
  obtain ⟨ha', -⟩ := h.branchPending hbp
  exact Bool.false_ne_true (ha'.symm.trans ha)

/-- With branch pending clear the end of an execute needs nothing more. -/
theorem State.Inv.endExecute (hbp : s.bp = false) : (endExecute s).Inv :=
  { h with
    haltNotAwaiting := fun _ => rfl
    branchPending := fun hbp' => absurd (hbp.symm.trans hbp') Bool.false_ne_true }

theorem State.Inv.setAcc (hbp : s.bp = false) (w : Word) : { s with acc := w }.Inv :=
  { h with branchPending := fun hbp' => absurd (hbp.symm.trans hbp') Bool.false_ne_true }

theorem State.Inv.endExecute_setHalt (hbp : s.bp = false) : (Machine.endExecute (setHalt s)).Inv :=
  { h with
    haltNotAwaiting := fun _ => rfl
    branchPending := fun hbp' => absurd (hbp.symm.trans hbp') Bool.false_ne_true }

theorem State.Inv.endExecute_branchIfZero (hh : s.halt = false) (hbp : s.bp = false)
    (hop : s.irFields.op = Code.opBeq) : (Machine.endExecute (branchIfZero s)).Inv := by
  by_cases hacc : s.acc = 0
  · rw [branchIfZero_of_zero hacc]
    exact { h with haltNotAwaiting := fun _ => rfl, branchPending := fun _ => ⟨rfl, hh, hop, hacc⟩ }
  · rw [branchIfZero_of_ne hacc]
    exact h.endExecute hbp

/-- The execute of the latched instruction, its meaning and the end of the phase together: only BEQ can set branch pending,
and the latch then holds the BEQ. TX, which OUT TRANSMIT writes, stands in no clause of the invariant. -/
theorem State.Inv.execute (hh : s.halt = false) (ha : s.await = true) {u : State}
    (hu : exec (decode s.ir) s = .next u) : (Machine.endExecute u).Inv := by
  have hbp := h.bp_of_await ha
  rcases exec_next_cases hu with ⟨-, -, w, rfl⟩ | ⟨hop, -, rfl⟩ | ⟨-, hl, rfl⟩ | ⟨-, rfl⟩ | ⟨-, rfl⟩ | ⟨-, rfl⟩
  · exact (h.setAcc hbp w).endExecute hbp
  · rw [decode_fields] at hop
    exact h.endExecute_branchIfZero hh hbp hop
  · exact (h.setCell hl h.curInRange s.acc).endExecute hbp
  · exact h.endExecute_setHalt hbp
  · exact { h.endExecute hbp with }
  · exact h.endExecute hbp

theorem State.Inv.stepOut {o : StepOut} (ho : stepOut s = .next o) : o.state.Inv := by
  obtain ⟨-, hcase⟩ := stepOut_next ho
  cases hcase with
  | halted | idle => exact h.drumStep
  | fetch hh => exact h.drumStep.latch hh _
  | execute hh ha hal u hu => exact h.drumStep.execute hh ha hu

theorem State.Inv.tick : (tick s).Inv := by
  cases ho : Machine.stepOut s with
  | next o => exact tick_of_next (c := o.completed) ho ▸ h.stepOut ho
  | fault e => exact tick_of_fault ho ▸ h.recordFault (step_fault_ofStep (step_fault_iff.2 ho))
  | refused r =>
    obtain ⟨f, hf, -⟩ := stepOut_refused ho
    exact (tick_of_faulted hf).symm ▸ h

theorem State.Inv.poke {t : State} {l sl : Nat} {v : Int} (hp : poke s l sl v = .next t) : t.Inv := by
  obtain ⟨-, hl, hsl, w, -, rfl⟩ := poke_next hp
  exact h.setCell hl hsl w

end

/-! ### The statements -/

/-- Settles O44: every field by its definition, the entry point by `create_pc`. -/
theorem resetLeavesEverythingZero : Obligations.ResetLeavesEverythingZero :=
  ⟨fun c => ⟨rfl, rfl, rfl, rfl, rfl, rfl, rfl, rfl, rfl, create_pc c, fun _ _ => rfl⟩, rfl⟩

/-- Settles O45, by `create_inv`; the default parameters are admissible. -/
theorem createdMachineMeetsTheInvariant : Obligations.CreatedMachineMeetsTheInvariant :=
  ⟨fun _ => create_inv, create_inv defaultConfig_valid⟩

/-- Settles O46: each of the four kinds of tick keeps the invariant (`State.Inv.stepOut`), and recording a step's fault
does (`State.Inv.tick`). -/
theorem everyStepKeepsTheInvariant : Obligations.EveryStepKeepsTheInvariant := by
  refine ⟨fun s t h hstep => ?_, fun _ h => h.tick⟩
  obtain ⟨c, ho⟩ := step_next_iff.1 hstep
  exact h.stepOut ho

/-- Settles O47, by `State.Inv.poke`; a poke's one write is of the drum. -/
theorem pokeKeepsTheInvariant : Obligations.PokeKeepsTheInvariant := by
  intro s t l sl v h hp
  refine ⟨h.poke hp, ?_⟩
  obtain ⟨-, -, -, w, -, rfl⟩ := poke_next hp
  rfl

end Sys2Proof.Machine
end

section
/-! PROOF. The word codec (40_word_codec.md): signed encoding, sums and differences, the bitwise operations on signed readings,
rotation, and the fraction codec. -/

namespace Sys2Proof.Machine

/-! ### Signed encoding -/

theorem toSigned_injective : Function.Injective toSigned := by
  intro a b h
  rw [toSigned_eq_toInt, toSigned_eq_toInt] at h
  exact BitVec.eq_of_toInt_eq h

/-- A checked encoding succeeds with exactly the word that reads as the number (40_word_codec.md R112, R113). -/
theorem encodeChecked_ok_iff_toSigned {n : Int} {w : Word} : encodeChecked n = .ok w ↔ toSigned w = n := by
  rw [encodeChecked_ok_iff]
  constructor
  · rintro ⟨hlo, hhi, rfl⟩
    rw [toSigned_eq_toInt]
    exact BitVec.toInt_ofInt_eq_self (by omega) (by omega) (by omega)
  · rintro rfl
    obtain ⟨hlo, hhi⟩ := toSigned_bounds w
    exact ⟨hlo, hhi, by rw [toSigned_eq_toInt, BitVec.ofInt_toInt]⟩

theorem encodeChecked_of_range {n : Int} (hlo : -(2 ^ 23) ≤ n) (hhi : n ≤ 2 ^ 23 - 1) :
    ∃ w, encodeChecked n = .ok w ∧ toSigned w = n :=
  have h : encodeChecked n = .ok (BitVec.ofInt 24 n) := encodeChecked_ok_iff.2 ⟨by omega, by omega, rfl⟩
  ⟨_, h, encodeChecked_ok_iff_toSigned.1 h⟩

theorem encodeChecked_error_iff_range {n : Int} {e : Fault} :
    encodeChecked n = .error e ↔ e = .rangeError n ∧ (n < -(2 ^ 23) ∨ 2 ^ 23 - 1 < n) := by
  rw [encodeChecked_error_iff, and_comm]
  norm_num

theorem fromSigned_eq_some_iff {n : Int} {w : Word} : fromSigned n = some w ↔ toSigned w = n := by
  rw [← encodeChecked_ok_iff_toSigned]
  unfold encodeChecked
  cases fromSigned n <;> simp

theorem fromSigned_of_not_range {n : Int} (h : n < -(2 ^ 23) ∨ 2 ^ 23 ≤ n) : fromSigned n = none := by
  rw [Option.eq_none_iff_forall_ne_some]
  intro w hw
  obtain ⟨hlo, hhi⟩ := toSigned_bounds w
  rw [fromSigned_eq_some_iff.1 hw] at hlo hhi
  omega

theorem toNat_of_toSigned_nonneg {w : Word} (h : 0 ≤ toSigned w) : (w.toNat : Int) = toSigned w := by
  have hbit : w.getLsbD 23 = false := by
    rw [← Bool.not_eq_true, ← toSigned_neg_iff]
    exact not_lt.2 h
  exact (toSigned_of_bit23_clear hbit).symm

theorem toNat_of_toSigned_neg {w : Word} (h : toSigned w < 0) :
    (w.toNat : Int) = toSigned w + 2 ^ 24 ∧ w.getLsbD 23 = true := by
  have hbit := (toSigned_neg_iff w).1 h
  exact ⟨by rw [toSigned_of_bit23_set hbit, sub_add_cancel], hbit⟩

theorem toSigned_eq_zero_iff (w : Word) : toSigned w = 0 ↔ w = 0 :=
  toSigned_injective.eq_iff' rfl

/-! ### Sums and differences -/

theorem eq_add_of_addW {a b w : Word} (h : addW a b = .ok w) : w = a + b := by
  obtain ⟨-, -, hw⟩ := encodeChecked_ok_iff.1 h
  rw [hw, toSigned_eq_toInt, toSigned_eq_toInt, BitVec.ofInt_add, BitVec.ofInt_toInt, BitVec.ofInt_toInt]

theorem eq_sub_of_subW {a b w : Word} (h : subW a b = .ok w) : w = a - b := by
  obtain ⟨-, -, hw⟩ := encodeChecked_ok_iff.1 h
  rw [hw, toSigned_eq_toInt, toSigned_eq_toInt, sub_eq_add_neg, BitVec.ofInt_add, BitVec.ofInt_neg, BitVec.ofInt_toInt,
    BitVec.ofInt_toInt, BitVec.sub_eq_add_neg]

theorem addW_of_opposite_signs {a b : Word} (ha : toSigned a < 0) (hb : 0 ≤ toSigned b) : ∃ w, addW a b = .ok w := by
  obtain ⟨ha', -⟩ := toSigned_bounds a
  obtain ⟨-, hb'⟩ := toSigned_bounds b
  obtain ⟨w, hw, -⟩ := encodeChecked_of_range (n := toSigned a + toSigned b) (by omega) (by omega)
  exact ⟨w, hw⟩

theorem subW_of_same_signs {a b : Word} (h : toSigned a < 0 ↔ toSigned b < 0) : ∃ w, subW a b = .ok w := by
  obtain ⟨halo, hahi⟩ := toSigned_bounds a
  obtain ⟨hblo, hbhi⟩ := toSigned_bounds b
  obtain ⟨w, hw, -⟩ := encodeChecked_of_range (n := toSigned a - toSigned b) (by omega) (by omega)
  exact ⟨w, hw⟩

theorem toSigned_zero : toSigned 0 = 0 := rfl

theorem subW_self (a : Word) : subW a a = .ok 0 :=
  encodeChecked_ok_iff_toSigned.2 (by rw [toSigned_zero, sub_self])

theorem addW_zero (a : Word) : addW a 0 = .ok a :=
  encodeChecked_ok_iff_toSigned.2 (by rw [toSigned_zero, add_zero])

theorem subW_zero (a : Word) : subW a 0 = .ok a :=
  encodeChecked_ok_iff_toSigned.2 (by rw [toSigned_zero, sub_zero])

/-! ### The bitwise operations on signed readings

A word reads as its own number when bit 23 is clear and as the integer whose complement is the word's complement when it is
set: the two constructors on which `Int.land` and `Int.xor` split. -/

theorem toSigned_eq_ofNat {w : Word} (h : w.getLsbD 23 = false) : toSigned w = Int.ofNat w.toNat :=
  toSigned_of_bit23_clear h

theorem toSigned_eq_negSucc {w : Word} (h : w.getLsbD 23 = true) : toSigned w = Int.negSucc (~~~w).toNat := by
  rw [toSigned_of_bit23_set h, Int.negSucc_eq, complement_add_one_eq, neg_sub]

theorem toNat_ldiff_not (a b : Word) : Nat.ldiff a.toNat (~~~b).toNat = (a &&& b).toNat := by
  apply Nat.eq_of_testBit_eq
  intro i
  rw [Nat.testBit_ldiff, BitVec.testBit_toNat, BitVec.testBit_toNat, BitVec.testBit_toNat, BitVec.getLsbD_not,
    BitVec.getLsbD_and]
  by_cases hi : i < 24
  · simp [hi]
  · simp [BitVec.getLsbD_of_ge a i (by omega)]

theorem toSigned_and24 (a b : Word) : toSigned (and24 a b) = Int.land (toSigned a) (toSigned b) := by
  have hbit : (a &&& b).getLsbD 23 = (a.getLsbD 23 && b.getLsbD 23) := BitVec.getLsbD_and
  unfold and24
  cases ha : a.getLsbD 23 <;> cases hb : b.getLsbD 23 <;> rw [ha, hb] at hbit
  · rw [toSigned_eq_ofNat ha, toSigned_eq_ofNat hb, toSigned_eq_ofNat hbit, BitVec.toNat_and]
    rfl
  · rw [toSigned_eq_ofNat ha, toSigned_eq_negSucc hb, toSigned_eq_ofNat hbit, ← toNat_ldiff_not]
    rfl
  · rw [toSigned_eq_negSucc ha, toSigned_eq_ofNat hb, toSigned_eq_ofNat hbit, BitVec.and_comm, ← toNat_ldiff_not]
    rfl
  · rw [toSigned_eq_negSucc ha, toSigned_eq_negSucc hb, toSigned_eq_negSucc hbit, BitVec.not_and, BitVec.toNat_or]
    rfl

theorem toSigned_xor24 (a b : Word) : toSigned (xor24 a b) = Int.xor (toSigned a) (toSigned b) := by
  have hbit : (a ^^^ b).getLsbD 23 = (a.getLsbD 23 ^^ b.getLsbD 23) := BitVec.getLsbD_xor
  unfold xor24
  cases ha : a.getLsbD 23 <;> cases hb : b.getLsbD 23 <;> rw [ha, hb] at hbit
  · rw [toSigned_eq_ofNat ha, toSigned_eq_ofNat hb, toSigned_eq_ofNat hbit, BitVec.toNat_xor]
    rfl
  · rw [toSigned_eq_ofNat ha, toSigned_eq_negSucc hb, toSigned_eq_negSucc hbit, BitVec.not_xor_right, BitVec.toNat_xor]
    rfl
  · rw [toSigned_eq_negSucc ha, toSigned_eq_ofNat hb, toSigned_eq_negSucc hbit, BitVec.not_xor_left, BitVec.toNat_xor]
    rfl
  · have hnot : a ^^^ b = ~~~a ^^^ ~~~b := by rw [← BitVec.not_xor_left, ← BitVec.not_xor_right, BitVec.not_not]
    rw [toSigned_eq_negSucc ha, toSigned_eq_negSucc hb, toSigned_eq_ofNat hbit, hnot, BitVec.toNat_xor]
    rfl

/-! ### Rotation

Both forms of ROT are the library's `BitVec.rotateLeft`: the meaning's by one amount, the source's scan in single steps. -/

theorem rotateLeft_zero (v : Word) : v.rotateLeft 0 = v := by
  apply BitVec.eq_of_getMsbD_eq
  intro i hi
  rw [BitVec.getMsbD_rotateLeft, Nat.zero_add, Nat.mod_eq_of_lt hi, decide_eq_true hi, Bool.true_and]

/-- The two parts of a rotated word have no bit in common, so their sum is their union. -/
theorem rotl24_eq_rotateLeft (v : Word) (n : Nat) : rotl24 v (n % 24) = v.rotateLeft n := by
  have hn : n % 24 < 24 := Nat.mod_lt n (by omega)
  rw [← BitVec.rotateLeft_mod_eq_rotateLeft]
  generalize n % 24 = r at hn ⊢
  unfold rotl24
  split
  · next hr => rw [hr, rotateLeft_zero]
  · have hlow : v.toNat >>> (24 - r) < 2 ^ r := by
      rw [Nat.shiftRight_eq_div_pow, Nat.div_lt_iff_lt_mul (by positivity), ← pow_add, Nat.add_sub_cancel' hn.le]
      exact v.isLt
    have hhigh : v.toNat <<< r % 2 ^ 24 = 2 ^ r * (v.toNat % 2 ^ (24 - r)) := by
      rw [Nat.shiftLeft_eq, Nat.mul_comm, ← Nat.mul_mod_mul_left, ← pow_add, Nat.add_sub_cancel' hn.le]
    have hunion : v.toNat <<< r % 2 ^ 24 + v.toNat >>> (24 - r) = v.toNat <<< r % 2 ^ 24 ||| v.toNat >>> (24 - r) := by
      rw [hhigh, Nat.two_pow_add_eq_or_of_lt hlow]
    have hrot : v.toNat <<< r % 2 ^ 24 ||| v.toNat >>> (24 - r) = (v.rotateLeft r).toNat := by
      rw [BitVec.toNat_rotateLeft, Nat.mod_eq_of_lt hn]
    rw [hunion, hrot, BitVec.ofNat_toNat, BitVec.setWidth_eq]

theorem rotateOnce_eq_rotateLeft (v : Word) : rotateOnce v = v.rotateLeft 1 := rfl

theorem rotateOnce_rotateLeft (v : Word) (n : Nat) : rotateOnce (v.rotateLeft n) = v.rotateLeft (n + 1) := by
  rw [rotateOnce_eq_rotateLeft]
  apply BitVec.eq_of_getMsbD_eq
  intro i hi
  have hmod : (n + (1 + i) % 24) % 24 = (n + 1 + i) % 24 := by omega
  have hlt : (1 + i) % 24 < 24 := Nat.mod_lt _ (by omega)
  simp only [BitVec.getMsbD_rotateLeft, hmod, hlt, decide_true, Bool.true_and]

theorem rotateScan_eq_rotateLeft (v x : Word) (k : Nat) : rotateScan v x k = v.rotateLeft (popcountLow x k) := by
  induction k with
  | zero => exact (rotateLeft_zero v).symm
  | succ k ih =>
    have hbit : bits x k k < 2 := by
      rw [bits_eq, Nat.sub_self]
      exact Nat.mod_lt _ (by omega)
    rw [rotateScan, popcountLow, ih]
    split
    · next h1 => rw [h1, rotateOnce_rotateLeft]
    · next h1 => rw [show bits x k k = 0 by omega, Nat.add_zero]

theorem rotl24_popcountLow (v x : Word) (k : Nat) : rotl24 v (popcountLow x k % 24) = rotateScan v x k := by
  rw [rotl24_eq_rotateLeft, rotateScan_eq_rotateLeft]

theorem rotateOnce_getLsbD_succ (v : Word) {i : Nat} (hi : i < 23) :
    (rotateOnce v).getLsbD (i + 1) = v.getLsbD i := by
  rw [rotateOnce_eq_rotateLeft, BitVec.getLsbD_rotateLeft]
  have hlt : i + 1 < 24 := by omega
  simp [hlt]

theorem rotateOnce_getLsbD_zero (v : Word) : (rotateOnce v).getLsbD 0 = v.getLsbD 23 := by
  rw [rotateOnce_eq_rotateLeft, BitVec.getLsbD_rotateLeft]
  rfl

/-! ### Fractions -/

/-- The codec on an argument inside the interval, for a rounding that moves it by at most `ε` and stays in range: the word
reads as the rounded number, so the fraction is off by `ε` units of the last place. -/
theorem fromFractionWith_of_rounding {round : Rat → Int} {f ε : Rat} (hlo : -1 < f) (hhi : f < 1)
    (hε : |(round (f * fracScale) : Rat) - f * fracScale| ≤ ε) (hround : |round (f * fracScale)| ≤ 8388607) :
    ∃ w, fromFractionWith round f = .ok w ∧ toSigned w = round (f * fracScale) ∧ |toFraction w - f| ≤ ε / 8388607 := by
  have hin : ¬ (f ≤ -1 ∨ 1 ≤ f) := by
    rw [not_or, not_le, not_le]
    exact ⟨hlo, hhi⟩
  obtain ⟨hnlo, hnhi⟩ := abs_le.1 hround
  obtain ⟨w, hw, hwn⟩ := encodeChecked_of_range (n := round (f * fracScale)) (by omega) (by omega)
  refine ⟨w, by rw [fromFractionWith, if_neg hin, hw], hwn, ?_⟩
  have hunits : toFraction w - f = ((round (f * fracScale) : Rat) - f * fracScale) / 8388607 := by
    rw [toFraction, hwn, sub_div, show fracScale = 8388607 from rfl, mul_div_cancel_right₀ f (by norm_num)]
  rw [hunits, abs_div, abs_of_pos (show (0 : Rat) < 8388607 by norm_num)]
  exact div_le_div_of_nonneg_right hε (by norm_num)

theorem abs_mul_fracScale_lt {f : Rat} (hlo : -1 < f) (hhi : f < 1) : |f * fracScale| < 8388607 := by
  rw [abs_lt, show fracScale = 8388607 from rfl]
  constructor <;> linarith

/-- Rounding half up is within half a unit. -/
theorem abs_floor_add_half_sub_le (q : Rat) : |((q + 1 / 2).floor : Rat) - q| ≤ 1 / 2 := by
  change |(⌊q + 1 / 2⌋ : Rat) - q| ≤ 1 / 2
  have hle := Int.floor_le (q + 1 / 2)
  have hlt := Int.lt_floor_add_one (q + 1 / 2)
  exact abs_le.2 ⟨by linarith, by linarith⟩

theorem abs_roundNearestAway_sub_le (q : Rat) : |(roundNearestAway q : Rat) - q| ≤ 1 / 2 := by
  unfold roundNearestAway
  split
  · exact abs_floor_add_half_sub_le q
  · have h := abs_floor_add_half_sub_le (-q)
    rwa [abs_sub_comm, Int.cast_neg, sub_neg_eq_add, add_comm, ← sub_neg_eq_add]

/-- An integer within half a unit of a number inside the scale is within the scale. -/
theorem abs_roundNearestAway_le {q : Rat} (hq : |q| < 8388607) : |roundNearestAway q| ≤ 8388607 := by
  have hclose := abs_roundNearestAway_sub_le q
  rw [abs_le] at hclose
  rw [abs_lt] at hq
  have hlo : ((-8388608 : Int) : Rat) < roundNearestAway q := by push_cast; linarith
  have hhi : (roundNearestAway q : Rat) < (8388608 : Int) := by push_cast; linarith
  rw [Int.cast_lt] at hlo hhi
  exact abs_le.2 ⟨by omega, by omega⟩

/-! ### The statements -/

/-- Settles O9: all clauses follow from `fromSigned_eq_some_iff`, that `fromSigned n` is the one word that reads as `n`. -/
theorem signedEncodingRoundTrips : Obligations.SignedEncodingRoundTrips := by
  refine ⟨fun n hlo hhi => ?_, fun n => fromSigned_of_not_range, fun w => fromSigned_eq_some_iff.2 rfl,
    toSigned_eq_zero_iff, fun w hw => ?_⟩
  · obtain ⟨w, -, rfl⟩ := encodeChecked_of_range hlo (by omega)
    exact ⟨w, fromSigned_eq_some_iff.2 rfl, rfl, toNat_of_toSigned_nonneg, toNat_of_toSigned_neg⟩
  · have := toSigned_bounds w
    omega

/-- Settles O10: results by `encodeChecked_ok_iff_toSigned`, errors by `encodeChecked_error_iff_range`. -/
theorem signedSumsAreExactOrRangeErrors : Obligations.SignedSumsAreExactOrRangeErrors :=
  ⟨fun _ _ _ => encodeChecked_ok_iff_toSigned, fun _ _ _ => encodeChecked_ok_iff_toSigned, fun _ _ _ => eq_add_of_addW,
    fun _ _ _ => eq_sub_of_subW, fun _ _ _ => encodeChecked_error_iff_range, fun _ _ _ => encodeChecked_error_iff_range,
    fun _ _ => addW_of_opposite_signs, fun _ _ => subW_of_same_signs, fun a => ⟨subW_self a, addW_zero a, subW_zero a⟩⟩

/-- Settles O11, by `toSigned_and24` and `toSigned_xor24`. -/
theorem bitwiseAgreesWithSignedReading : Obligations.BitwiseAgreesWithSignedReading :=
  fun a b => ⟨toSigned_and24 a b, toSigned_xor24 a b⟩

/-- Settles O12: the scan by `rotl24_popcountLow`, for any number of scanned bits. -/
theorem rotationIsOneStepPerSetBit : Obligations.RotationIsOneStepPerSetBit :=
  ⟨fun acc x k _ => rotl24_popcountLow acc x k, fun v _ => rotateOnce_getLsbD_succ v, rotateOnce_getLsbD_zero⟩

/-- Settles O13: `fromFractionWith_of_rounding` with half a unit for the default rounding and one unit for any other; the
word `0x800000` reads as a number beyond the scale. -/
theorem fractionRoundTripWithinOneUnit : Obligations.FractionRoundTripWithinOneUnit := by
  refine ⟨fun f hlo hhi => ?_, fun round hadm f hlo hhi => ?_⟩
  · obtain ⟨w, hw, -, herr⟩ := fromFractionWith_of_rounding hlo hhi (abs_roundNearestAway_sub_le _)
      (abs_roundNearestAway_le (abs_mul_fracScale_lt hlo hhi))
    exact ⟨w, hw, herr.trans_eq (by norm_num)⟩
  · obtain ⟨hε, hround⟩ := hadm _ (abs_mul_fracScale_lt hlo hhi)
    obtain ⟨w, hw, hwn, herr⟩ := fromFractionWith_of_rounding hlo hhi hε hround
    refine ⟨w, hw, herr, ?_⟩
    rintro rfl
    rw [← hwn] at hround
    exact absurd hround (by decide)

end Sys2Proof.Machine
end

section
/-! PROOF. The meanings one by one (42_alu_data.md, 43_control.md, 44_io.md): with an operand line that exists each completes,
and what each leaves alone. -/

namespace Sys2Proof.Machine

/-! ### Completion -/

/-- ADD's and SUB's common shape: an exact number `f x` of the operand `x`, range checked into ACC. -/
theorem checkedOp_completes {s : State} {ol : Field5} (hl : ol.toNat < s.cfg.nLines) (f : Word → Int) :
    (-(2 ^ 23) ≤ f (s.cell ol.toNat s.cur) → f (s.cell ol.toNat s.cur) ≤ 2 ^ 23 - 1 →
      ∃ w, toSigned w = f (s.cell ol.toNat s.cur) ∧
        (withOperand s ol fun x => setAcc s (encodeChecked (f x))) = .next { s with acc := w }) ∧
    (f (s.cell ol.toNat s.cur) < -(2 ^ 23) ∨ 2 ^ 23 - 1 < f (s.cell ol.toNat s.cur) →
      (withOperand s ol fun x => setAcc s (encodeChecked (f x))) = .fault (.rangeError (f (s.cell ol.toNat s.cur)))) := by
  refine ⟨fun hlo hhi => ?_, fun hout => ?_⟩
  · obtain ⟨w, hw, hwn⟩ := encodeChecked_of_range hlo hhi
    exact ⟨w, hwn, accOp_next_iff.2 ⟨hl, w, hw, rfl⟩⟩
  · exact accOp_fault_iff.2 (.inr ⟨hl, encodeChecked_error_iff_range.2 ⟨rfl, hout⟩⟩)

theorem branchIfZero_eq (s : State) : branchIfZero s = { s with bp := if s.acc = 0 then true else s.bp } := by
  unfold branchIfZero
  split <;> rfl

theorem exec_of_isReserved {i : Instr} (h : isReserved i = true) (s : State) : exec i s = reserved s := by
  cases i with
  | outBranch | outDev3 | outDev4to7 | outDev8to15 | outDev16to31 => rfl
  | reserved10 | reserved11 | reserved12 | reserved13 | reserved14 | reserved15 => rfl
  | _ => exact absurd h Bool.false_ne_true

/-! ### Which instruction it is, from its class or its opcode -/

theorem row_eq_ten_iff_outTransmit {i : Instr} : i.row = 10 ↔ ∃ ol ns nl, i = .outTransmit ol ns nl := by
  cases i <;> simp [Instr.row]

theorem op_eq_opBeq_iff_beq {i : Instr} : i.fields.op = Code.opBeq ↔ ∃ os ol ns nl, i = .beq os ol ns nl := by
  cases i <;> simp [Instr.fields, Code.opLoad, Code.opAdd, Code.opSub, Code.opAnd, Code.opXor, Code.opRot, Code.opBeq,
    Code.opStore, Code.opIn, Code.opOut]

theorem op_eq_opStore_iff_store {i : Instr} : i.fields.op = Code.opStore ↔ ∃ os ol ns nl, i = .store os ol ns nl := by
  cases i <;> simp [Instr.fields, Code.opLoad, Code.opAdd, Code.opSub, Code.opAnd, Code.opXor, Code.opRot, Code.opBeq,
    Code.opStore, Code.opIn, Code.opOut]

/-! ### Frames -/

theorem exec_next_of_writesAcc {i : Instr} {s t : State} (hw : writesAcc i = true) (h : exec i s = .next t) :
    ∃ w, t = { s with acc := w } := by
  cases i with
  | load | add | sub | and | xor | rot =>
    obtain ⟨-, w, -, ht⟩ := accOp_next_iff.1 h
    exact ⟨w, ht⟩
  | _ => exact absurd hw Bool.false_ne_true

/-- The inversion `exec_next_cases` with its cases named as instructions, for those that do not write ACC. -/
theorem exec_next_of_not_writesAcc {i : Instr} {s t : State} (hw : writesAcc i = false) (h : exec i s = .next t) :
    ((∃ os ol ns nl, i = .beq os ol ns nl) ∧ t = branchIfZero s) ∨
    ((∃ os ol ns nl, i = .store os ol ns nl) ∧ t = s.setCell i.fields.oline.toNat s.cur s.acc) ∨
    ((∃ ol ns nl, i = .outHalt ol ns nl) ∧ t = setHalt s) ∨
    ((∃ ol ns nl, i = .outTransmit ol ns nl) ∧ t = { s with tx := s.tx ++ [s.acc] }) ∨ t = s := by
  rcases exec_next_cases h with ⟨hw', -⟩ | ⟨hop, -, ht⟩ | ⟨hop, -, ht⟩ | ⟨hrow, ht⟩ | ⟨hrow, ht⟩ | ⟨-, ht⟩
  · exact absurd (hw.symm.trans hw') Bool.false_ne_true
  · exact .inl ⟨op_eq_opBeq_iff_beq.1 hop, ht⟩
  · exact .inr (.inl ⟨op_eq_opStore_iff_store.1 hop, ht⟩)
  · exact .inr (.inr (.inl ⟨row_eq_nine_iff_outHalt.1 hrow, ht⟩))
  · exact .inr (.inr (.inr (.inl ⟨row_eq_ten_iff_outTransmit.1 hrow, ht⟩)))
  · exact .inr (.inr (.inr (.inr ht)))

theorem exec_store_next {s t : State} {os ol ns nl : Field5} (h : exec (.store os ol ns nl) s = .next t) :
    t = s.setCell ol.toNat s.cur s.acc :=
  (drumWrite_next_iff.1 h).2

/-! ### The statements -/

/-- Settles O25: the operand is read (`withOperand_of_lt`) and put into ACC. -/
theorem loadCompletes : Obligations.LoadCompletes :=
  fun _ _ _ _ _ hl => withOperand_of_lt hl

/-- Settles O26, by `checkedOp_completes`. -/
theorem addCompletesInRange : Obligations.AddCompletesInRange :=
  fun s _ _ _ _ hl => checkedOp_completes hl fun x => toSigned s.acc + toSigned x

/-- Settles O27, by `checkedOp_completes`. -/
theorem subCompletesInRange : Obligations.SubCompletesInRange :=
  fun s _ _ _ _ hl => checkedOp_completes hl fun x => toSigned s.acc - toSigned x

/-- Settles O28: the operand is read (`withOperand_of_lt`), the two words are combined as bit vectors. -/
theorem andXorCompleteBitByBit : Obligations.AndXorCompleteBitByBit :=
  fun _ _ _ _ _ hl =>
    ⟨⟨_, withOperand_of_lt hl, fun _ => BitVec.getLsbD_and⟩, ⟨_, withOperand_of_lt hl, fun _ => BitVec.getLsbD_xor⟩⟩

/-- Settles O29: the rotation by the population count is the scan (`rotl24_popcountLow`). -/
theorem rotCompletesAsTheScan : Obligations.RotCompletesAsTheScan := by
  refine ⟨fun s os ol ns nl _ hl => ?_, rfl⟩
  rw [← rotl24_popcountLow]
  exact withOperand_of_lt hl

/-- Settles O30: the write completes (`drumWrite_next_iff`); cells are told apart by their keys (`cellKey_inj`). -/
theorem storeCompletes : Obligations.StoreCompletes := by
  intro s os ol ns nl hm hcur hl
  refine ⟨s.setCell ol.toNat s.cur s.acc, drumWrite_next_iff.2 ⟨hl, rfl⟩, rfl, ?_, fun l sl hsl hne => ?_⟩
  · rw [State.cell_setCell hm, if_pos rfl]
  · have hkey : cellKey l sl ≠ cellKey ol.toNat s.cur := by
      intro hk
      obtain ⟨rfl, rfl⟩ := (cellKey_inj hsl hcur).1 hk
      exact hne rfl
    rw [State.cell_setCell hm, if_neg hkey]

/-- Settles O31: the operand is read and discarded (`withOperand_of_lt`), then `branchIfZero_eq`. -/
theorem beqCompletes : Obligations.BeqCompletes := by
  intro s os ol ns nl hl
  rw [← branchIfZero_eq]
  exact withOperand_of_lt hl

/-- Settles O32: the three meanings as they are defined; none has a condition. -/
theorem inAndOutComplete : Obligations.InAndOutComplete :=
  ⟨fun _ _ _ _ _ => rfl, fun _ _ _ _ => rfl, fun _ _ _ _ => rfl⟩

/-- Settles O33: every reserved row's meaning is `reserved` (`exec_of_isReserved`), which asks the policy. -/
theorem reservedRowsCompleteUnderNoop : Obligations.ReservedRowsCompleteUnderNoop := by
  intro s a b c d i hi
  have hres : isReserved i = true := by
    simp only [List.mem_cons, List.not_mem_nil, or_false] at hi
    rcases hi with rfl | rfl | rfl | rfl | rfl | rfl | rfl | rfl | rfl | rfl | rfl <;> rfl
  rw [exec_of_isReserved hres]
  exact ⟨reserved_of_noop, reserved_of_fault⟩

/-- Settles O34, by `exec_next_of_writesAcc`. -/
theorem accumulatorInstructionsFrame : Obligations.AccumulatorInstructionsFrame := by
  intro i s t hw h
  obtain ⟨w, rfl⟩ := exec_next_of_writesAcc hw h
  exact ⟨rfl, rfl, rfl, rfl, rfl, rfl, rfl, rfl, rfl, fun _ => rfl⟩

/-- Settles O35: STORE's one effect is the cell write (`exec_store_next`), which leaves every other key
(`Memory.read_write`). -/
theorem storeFrame : Obligations.StoreFrame := by
  intro s t os ol ns nl hm h
  obtain rfl := exec_store_next h
  refine ⟨rfl, rfl, rfl, rfl, rfl, rfl, rfl, rfl, rfl, rfl, ?_⟩
  rintro a rfl b hb
  rw [setCell_drum, Memory.read_write hm, if_neg hb]

/-- Settles O36: `exec_next_of_not_writesAcc` names the one update of BEQ, of OUT HALT and of OUT TRANSMIT. -/
theorem branchAndIoFrame : Obligations.BranchAndIoFrame := by
  intro i s t hw hstore h
  rcases exec_next_of_not_writesAcc hw h with
    ⟨⟨os, ol, ns, nl, rfl⟩, rfl⟩ | ⟨⟨os, ol, ns, nl, rfl⟩, -⟩ | ⟨⟨ol, ns, nl, rfl⟩, rfl⟩ | ⟨⟨ol, ns, nl, rfl⟩, rfl⟩ | rfl
  · simp
  · exact absurd rfl (hstore os ol ns nl)
  · simp
  · simp
  · simp

end Sys2Proof.Machine
end

section
/-! PROOF. The step by the kind of its tick (41_engine_cycle.md): what a fetch and an execute answer, which element each can
have written, what a fatal error leaves and which execute raises it. -/

namespace Sys2Proof.Machine

/-! ### What each kind of tick answers -/

theorem stepOut_of_fetchTick {s : State} (hx : s.FetchTick) (hl : s.fetchLine < s.cfg.nLines) :
    stepOut s = .next ⟨latch (drumStep s) (s.cell s.fetchLine (drumStep s).cur), false⟩ := by
  obtain ⟨hf, hh, ha, hal⟩ := hx
  rw [stepOut_fetchPhase hf hh ha]
  exact fetchPhase_aligned hal hl

theorem stepOut_of_executeTick {s t : State} (hx : s.ExecuteTick) (ht : exec (decode s.ir) (drumStep s) = .next t) :
    stepOut s = .next ⟨endExecute t, true⟩ := by
  obtain ⟨hf, hh, ha, hal⟩ := hx
  rw [stepOut_executePhase hf hh ha]
  exact executePhase_next hal ht

theorem step_of_executeTick {s t : State} (hx : s.ExecuteTick) (ht : exec (decode s.ir) (drumStep s) = .next t) :
    step s = .next (endExecute t) :=
  step_next_iff.2 ⟨true, stepOut_of_executeTick hx ht⟩

/-- In a fetch tick the cursor comes to the fetch slot. -/
theorem fetchTick_cur {s : State} (hx : s.FetchTick) : (drumStep s).cur = s.fetchSlot :=
  of_decide_eq_true hx.2.2.2

/-- The step that goes on, inverted by the kind of tick. -/
theorem step_next_kinds {s t : State} (h : step s = .next t) :
    (s.HaltedTick ∧ t = drumStep s) ∨ (s.IdleTick ∧ t = drumStep s) ∨
    (s.FetchTick ∧ t = latch (drumStep s) (s.cell s.fetchLine (drumStep s).cur)) ∨
    (s.ExecuteTick ∧ ∃ u, exec (decode s.ir) (drumStep s) = .next u ∧ t = endExecute u) := by
  obtain ⟨c, hc⟩ := step_next_iff.1 h
  rcases stepOut_next_kinds hc with ⟨hx, ⟨⟩⟩ | ⟨hx, ⟨⟩⟩ | ⟨hx, ⟨⟩⟩ | ⟨hx, u, hu, ⟨⟩⟩
  · exact .inl ⟨hx, rfl⟩
  · exact .inr (.inl ⟨hx, rfl⟩)
  · exact .inr (.inr (.inl ⟨hx, rfl⟩))
  · exact .inr (.inr (.inr ⟨hx, u, hu, rfl⟩))

/-! ### The drum's motion -/

theorem step_cur_rev {s t : State} (h : step s = .next t) : t.cur = (drumStep s).cur ∧ t.rev = (drumStep s).rev := by
  obtain ⟨c, hc⟩ := step_next_iff.1 h
  exact stepOut_cur_rev hc

theorem drumStep_rev_eq_add (s : State) :
    (drumStep s).rev = s.rev + if (s.cur + 1) % s.cfg.nSlots = 0 then 1 else 0 :=
  congrArg State.rev (drumStep_eq s)

/-! ### Fault status and parameters -/

theorem step_fault_cfg {s t : State} (h : step s = .next t) : t.fault = none ∧ t.cfg = s.cfg := by
  rcases step_next_kinds h with ⟨hx, rfl⟩ | ⟨hx, rfl⟩ | ⟨hx, rfl⟩ | ⟨hx, u, hu, rfl⟩
  · exact ⟨hx.1, rfl⟩
  · exact ⟨hx.1, rfl⟩
  · exact ⟨hx.1, rfl⟩
  · obtain ⟨-, -, -, -, hfault, hcfg⟩ := exec_frame hu
    exact ⟨hfault.trans hx.1, hcfg⟩

/-- As long as no fault is recorded, the drum stands where that many rotations put it. -/
theorem ticks_cur_rev_turned {s : State} (hcur : s.cur < s.cfg.nSlots) (k : Nat) (halive : (ticks k s).fault = none) :
    (ticks k s).cur = (s.turned k).cur ∧ (ticks k s).rev = (s.turned k).rev ∧ (ticks k s).cfg = s.cfg := by
  induction k with
  | zero => exact (turned_zero hcur).symm ▸ ⟨rfl, rfl, rfl⟩
  | succ k ih =>
    obtain ⟨ihcur, ihrev, ihcfg⟩ := ih (ticks_fault_none_of_succ halive)
    rw [ticks_succ_last] at halive ⊢
    have hstep := step_of_tick_alive halive
    obtain ⟨hcur', hrev'⟩ := step_cur_rev hstep
    have hsame : (drumStep (ticks k s)).cur = (drumStep (s.turned k)).cur ∧
        (drumStep (ticks k s)).rev = (drumStep (s.turned k)).rev := by
      rw [drumStep_cur, drumStep_rev, ihcur, ihrev, ihcfg]
      exact ⟨rfl, rfl⟩
    rw [hcur', hrev', hsame.1, hsame.2, drumStep_turned, (step_fault_cfg hstep).2, ihcfg]
    exact ⟨rfl, rfl, rfl⟩

theorem ticks_of_faulted {s : State} {f : Fault} (h : s.fault = some f) (k : Nat) : ticks k s = s := by
  induction k with
  | zero => rfl
  | succ k ih => rw [ticks_succ, tick_of_faulted h, ih]

theorem step_of_faulted {s : State} {f : Fault} (h : s.fault = some f) : step s = .refused (.alreadyFaulted f) := by
  rw [step, stepOut_faulted h]
  rfl

/-! ### Who raises `RangeError` and `ReservedEncoding` -/

theorem exec_of_opAdd {i : Instr} (h : i.fields.op = Code.opAdd) (s : State) : exec i s = execAdd i.fields.oline s := by
  cases i with
  | add => rfl
  | _ => exact absurd h (ne_of_beq_false rfl)

theorem exec_of_opSub {i : Instr} (h : i.fields.op = Code.opSub) (s : State) : exec i s = execSub i.fields.oline s := by
  cases i with
  | sub => rfl
  | _ => exact absurd h (ne_of_beq_false rfl)

theorem exec_rangeError_iff {i : Instr} {s : State} {x : Int} :
    exec i s = .fault (.rangeError x) ↔
      i.fields.oline.toNat < s.cfg.nLines ∧ (x < -(2 ^ 23) ∨ 2 ^ 23 - 1 < x) ∧
        (i.fields.op = Code.opAdd ∧ x = toSigned s.acc + toSigned (s.cell i.fields.oline.toNat s.cur) ∨
          i.fields.op = Code.opSub ∧ x = toSigned s.acc - toSigned (s.cell i.fields.oline.toNat s.cur)) := by
  constructor
  · intro h
    rcases exec_fault_cases h with ⟨-, -, he⟩ | ⟨hop, hl, hadd⟩ | ⟨hop, hl, hsub⟩ | ⟨-, -, he⟩
    · cases he
    · obtain ⟨⟨⟩, hout⟩ := encodeChecked_error_iff_range.1 hadd
      exact ⟨hl, hout, .inl ⟨hop, rfl⟩⟩
    · obtain ⟨⟨⟩, hout⟩ := encodeChecked_error_iff_range.1 hsub
      exact ⟨hl, hout, .inr ⟨hop, rfl⟩⟩
    · cases he
  · rintro ⟨hl, hout, ⟨hop, rfl⟩ | ⟨hop, rfl⟩⟩
    · rw [exec_of_opAdd hop]
      exact accOp_fault_iff.2 (.inr ⟨hl, encodeChecked_error_iff_range.2 ⟨rfl, hout⟩⟩)
    · rw [exec_of_opSub hop]
      exact accOp_fault_iff.2 (.inr ⟨hl, encodeChecked_error_iff_range.2 ⟨rfl, hout⟩⟩)

theorem exec_reservedEncoding_iff {i : Instr} {s : State} {w : Word} :
    exec i s = .fault (.reservedEncoding w) ↔ isReserved i = true ∧ s.cfg.reserved = .fault ∧ w = s.ir := by
  constructor
  · intro h
    rcases exec_fault_cases h with ⟨-, -, he⟩ | ⟨-, -, hadd⟩ | ⟨-, -, hsub⟩ | ⟨hres, hpol, he⟩
    · cases he
    · cases (encodeChecked_error_iff.1 hadd).2
    · cases (encodeChecked_error_iff.1 hsub).2
    · exact ⟨hres, hpol, Fault.reservedEncoding.inj he⟩
  · rintro ⟨hres, hpol, rfl⟩
    rw [exec_of_isReserved hres, reserved_of_fault hpol]

/-- The reserved rows by their codes: an opcode from 10 up, or OUT to a device from 2 up. -/
theorem isReserved_iff {i : Instr} (hwf : i.WellFormed = true) :
    isReserved i = true ↔ 10 ≤ i.fields.op.toNat ∨ i.fields.op = Code.opOut ∧ 2 ≤ i.fields.dev.toNat := by
  cases i with
  | load | add | sub | and | xor | rot | beq | store | inp =>
    simp [isReserved, Instr.fields, Code.opLoad, Code.opAdd, Code.opSub, Code.opAnd, Code.opXor, Code.opRot, Code.opBeq,
      Code.opStore, Code.opIn, Code.opOut]
  | outHalt | outTransmit | outBranch | outDev3 =>
    simp [isReserved, Instr.fields, Fields.dev, Code.opOut, Code.devHalt, Code.devTransmit, Code.devBranch]
  | outDev4to7 dev | outDev8to15 dev | outDev16to31 dev =>
    have hdev : 2 ≤ dev.toNat := by
      simp only [Instr.WellFormed, decide_eq_true_eq] at hwf
      omega
    exact iff_of_true rfl (.inr ⟨rfl, hdev⟩)
  | reserved10 | reserved11 | reserved12 | reserved13 | reserved14 | reserved15 =>
    exact iff_of_true rfl (.inl (of_decide_eq_true rfl))

/-! ### Which element a tick writes -/

theorem exec_next_of_opBeq {i : Instr} {s t : State} (hop : i.fields.op = Code.opBeq) (h : exec i s = .next t) :
    t = branchIfZero s := by
  obtain ⟨os, ol, ns, nl, rfl⟩ := op_eq_opBeq_iff_beq.1 hop
  have h : withOperand s ol (fun _ => .next (branchIfZero s)) = .next t := h
  rcases withOperand_cases s ol fun _ => .next (branchIfZero s) with ⟨-, e⟩ | ⟨-, e⟩
  · exact (Host.Outcome.next.inj (e.symm.trans h)).symm
  · cases e.symm.trans h

/-- BEQ with ACC zero is the only meaning that sets BP, and none clears it. -/
theorem exec_bp {i : Instr} {s t : State} (h : exec i s = .next t) :
    t.bp = (s.bp || decide (i.fields.op = Code.opBeq ∧ s.acc = 0)) := by
  by_cases hop : i.fields.op = Code.opBeq
  · rw [exec_next_of_opBeq hop h]
    simp [hop]
  · rcases exec_next_cases h with ⟨-, -, w, rfl⟩ | ⟨hop', -⟩ | ⟨-, -, rfl⟩ | ⟨-, rfl⟩ | ⟨-, rfl⟩ | ⟨-, rfl⟩
    case inr.inl => exact absurd hop' hop
    all_goals simp [hop]

theorem step_bp_of_executeTick {s t : State} (h : step s = .next t) (hx : s.ExecuteTick) :
    t.bp = (s.bp || decide (s.irFields.op = Code.opBeq ∧ s.acc = 0)) := by
  rcases step_next_kinds h with ⟨hx', -⟩ | ⟨hx', -⟩ | ⟨hx', -⟩ | ⟨-, u, hu, rfl⟩
  · exact absurd hx' (not_haltedTick_of_running hx.2.1)
  · exact absurd hx' (not_idleTick_of_executeTick hx)
  · exact absurd hx (not_executeTick_of_fetchTick hx')
  · rw [endExecute_bp, exec_bp hu, decode_fields]
    rfl

theorem step_bp_of_fetchTick {s t : State} (h : step s = .next t) (hx : s.FetchTick) : t.bp = false := by
  obtain ⟨c, hc⟩ := step_next_iff.1 h
  cases stepOut_next_of_fetchTick hc hx
  rfl

theorem step_bp_unchanged {s t : State} (h : step s = .next t) (hfetch : ¬ s.FetchTick)
    (hbeq : ¬ (s.ExecuteTick ∧ s.irFields.op = Code.opBeq ∧ s.acc = 0)) : t.bp = s.bp := by
  rcases step_next_kinds h with ⟨-, rfl⟩ | ⟨-, rfl⟩ | ⟨hx, -⟩ | ⟨hx, -⟩
  · rfl
  · rfl
  · exact absurd hx hfetch
  · have hnot : ¬ (s.irFields.op = Code.opBeq ∧ s.acc = 0) := fun hb => hbeq ⟨hx, hb⟩
    rw [step_bp_of_executeTick h hx, decide_eq_false hnot, Bool.or_false]

/-- An element that rotation, latch and the end of an execute leave alone can change in an execute only, and there by the
meaning. -/
theorem exec_ne_of_step_ne {α : Type} {g : State → α} (hrotate : ∀ s, g (drumStep s) = g s)
    (hlatch : ∀ s w, g (latch s w) = g s) (hend : ∀ s, g (endExecute s) = g s) {s t : State} (h : step s = .next t)
    (hne : g t ≠ g s) : s.ExecuteTick ∧ ∃ u, exec (decode s.ir) (drumStep s) = .next u ∧ g u ≠ g (drumStep s) ∧
      t = endExecute u := by
  rcases step_next_kinds h with ⟨-, rfl⟩ | ⟨-, rfl⟩ | ⟨-, rfl⟩ | ⟨hx, u, hu, rfl⟩
  · exact absurd (hrotate s) hne
  · exact absurd (hrotate s) hne
  · exact absurd ((hlatch _ _).trans (hrotate s)) hne
  · rw [hend, ← hrotate s] at hne
    exact ⟨hx, u, hu, hne, rfl⟩

theorem writesAcc_of_exec_acc_ne {i : Instr} {s t : State} (h : exec i s = .next t) (hne : t.acc ≠ s.acc) :
    writesAcc i = true := by
  by_contra hw
  rcases exec_next_of_not_writesAcc (Bool.not_eq_true _ ▸ hw) h with
    ⟨-, rfl⟩ | ⟨-, rfl⟩ | ⟨-, rfl⟩ | ⟨-, rfl⟩ | rfl
  · exact hne (branchIfZero_acc s)
  all_goals exact hne rfl

theorem outTransmit_of_exec_tx_ne {i : Instr} {s t : State} (h : exec i s = .next t) (hne : t.tx ≠ s.tx) :
    t.tx = s.tx ++ [s.acc] ∧ ∃ ol ns nl, i = .outTransmit ol ns nl := by
  rcases exec_next_cases h with ⟨-, -, w, rfl⟩ | ⟨-, -, rfl⟩ | ⟨-, -, rfl⟩ | ⟨-, rfl⟩ | ⟨hrow, rfl⟩ | ⟨-, rfl⟩
  case inr.inl => exact absurd (branchIfZero_tx s) hne
  case inr.inr.inr.inr.inl => exact ⟨rfl, row_eq_ten_iff_outTransmit.1 hrow⟩
  all_goals exact absurd rfl hne

theorem store_of_exec_drum_ne {i : Instr} {s t : State} (h : exec i s = .next t) (hne : t.drum ≠ s.drum) :
    ∃ os ol ns nl, i = .store os ol ns nl := by
  rcases exec_next_cases h with ⟨-, -, w, rfl⟩ | ⟨-, -, rfl⟩ | ⟨hop, -, rfl⟩ | ⟨-, rfl⟩ | ⟨-, rfl⟩ | ⟨-, rfl⟩
  case inr.inl => exact absurd (branchIfZero_drum s) hne
  case inr.inr.inl => exact op_eq_opStore_iff_store.1 hop
  all_goals exact absurd rfl hne

theorem fetchTick_of_step_ir_ne {s t : State} (h : step s = .next t) (hne : t.ir ≠ s.ir) : s.FetchTick := by
  rcases step_next_kinds h with ⟨-, rfl⟩ | ⟨-, rfl⟩ | ⟨hx, -⟩ | ⟨-, u, hu, rfl⟩
  · exact absurd rfl hne
  · exact absurd rfl hne
  · exact hx
  · exact absurd (exec_frame hu).1 hne

theorem step_await_ne {s t : State} (h : step s = .next t) (hne : t.await ≠ s.await) :
    s.FetchTick ∧ t.await = true ∨ s.ExecuteTick ∧ t.await = false := by
  rcases step_next_kinds h with ⟨-, rfl⟩ | ⟨-, rfl⟩ | ⟨hx, rfl⟩ | ⟨hx, u, -, rfl⟩
  · exact absurd rfl hne
  · exact absurd rfl hne
  · exact .inl ⟨hx, rfl⟩
  · exact .inr ⟨hx, rfl⟩

/-! ### REV and TX are not read (10_state.md R30; 44_io.md R184) -/

/-- The state with another revolution count and another transmit sequence. -/
def State.withRevTx (s : State) (r : Nat) (x : List Word) : State := { s with rev := r, tx := x }

/-- The two states agree on every element but REV and TX. -/
def State.AgreesButRevTx (t t' : State) : Prop := t' = { t with rev := t'.rev, tx := t'.tx }

theorem drumStep_withRevTx (s : State) (r : Nat) (x : List Word) :
    drumStep (s.withRevTx r x) = (drumStep s).withRevTx (drumStep (s.withRevTx r x)).rev x := rfl

/-- Each meaning's condition is of other elements, and its update writes REV and TX, if at all, from other elements. -/
theorem exec_next_withRevTx {i : Instr} {s t : State} (h : exec i s = .next t) (r : Nat) (x : List Word) :
    ∃ t', exec i (s.withRevTx r x) = .next t' ∧ t.AgreesButRevTx t' := by
  have reserved_case (h : reserved s = .next t) :
      ∃ t', reserved (s.withRevTx r x) = .next t' ∧ t.AgreesButRevTx t' := by
    obtain ⟨hpol, rfl⟩ := reserved_next_iff.1 h
    exact ⟨_, reserved_of_noop hpol, rfl⟩
  cases i with
  | load | add | sub | and | xor | rot =>
    obtain ⟨hl, w, hw, rfl⟩ := accOp_next_iff.1 h
    exact ⟨_, accOp_next_iff.2 ⟨hl, w, hw, rfl⟩, rfl⟩
  | beq os ol ns nl =>
    have hl : ol.toNat < s.cfg.nLines := by
      by_contra hl
      cases h.symm.trans (withOperand_of_le (not_lt.1 hl))
    obtain rfl := exec_next_of_opBeq rfl h
    refine ⟨branchIfZero (s.withRevTx r x), withOperand_of_lt hl, ?_⟩
    unfold State.AgreesButRevTx
    rw [branchIfZero_eq, branchIfZero_eq]
    rfl
  | store os ol ns nl =>
    obtain ⟨hl, rfl⟩ := drumWrite_next_iff.1 h
    exact ⟨_, drumWrite_next_iff.2 ⟨hl, rfl⟩, rfl⟩
  | inp | outHalt | outTransmit =>
    cases h
    exact ⟨_, rfl, rfl⟩
  | outBranch | outDev3 | outDev4to7 | outDev8to15 | outDev16to31 => exact reserved_case h
  | reserved10 | reserved11 | reserved12 | reserved13 | reserved14 | reserved15 => exact reserved_case h


/-- The conditions of each fatal error read neither element. -/
theorem exec_fault_withRevTx {i : Instr} {s : State} {e : Fault} (h : exec i s = .fault e) (r : Nat) (x : List Word) :
    exec i (s.withRevTx r x) = .fault e := by
  cases e with
  | rangeError n => exact exec_rangeError_iff.2 (exec_rangeError_iff.1 h :)
  | outOfRange l c => exact exec_outOfRange_iff.2 (exec_outOfRange_iff.1 h :)
  | domainError q => exact absurd rfl (exec_fault_ofStep h q)
  | reservedEncoding w => exact exec_reservedEncoding_iff.2 (exec_reservedEncoding_iff.1 h :)

theorem fetchLine_lt_of_step_next {s t : State} (h : step s = .next t) (hx : s.FetchTick) :
    s.fetchLine < s.cfg.nLines := by
  by_contra hl
  cases h.symm.trans (step_fault_iff_kinds.2 (.inl ⟨hx, not_lt.1 hl, rfl⟩))

theorem step_next_withRevTx {s t : State} (h : step s = .next t) (r : Nat) (x : List Word) :
    ∃ t', step (s.withRevTx r x) = .next t' ∧ t.AgreesButRevTx t' := by
  rcases step_next_kinds h with ⟨hx, rfl⟩ | ⟨hx, rfl⟩ | ⟨hx, rfl⟩ | ⟨hx, u, hu, rfl⟩
  · have hx' : (s.withRevTx r x).HaltedTick := hx
    exact ⟨_, step_next_iff.2 ⟨_, stepOut_of_haltedTick hx'⟩, rfl⟩
  · have hx' : (s.withRevTx r x).IdleTick := hx
    exact ⟨_, step_next_iff.2 ⟨_, stepOut_of_idleTick hx'⟩, rfl⟩
  · have hx' : (s.withRevTx r x).FetchTick := hx
    have hl : s.fetchLine < s.cfg.nLines := fetchLine_lt_of_step_next h hx
    exact ⟨_, step_next_iff.2 ⟨_, stepOut_of_fetchTick hx' hl⟩, rfl⟩
  · have hx' : (s.withRevTx r x).ExecuteTick := hx
    obtain ⟨u', hu', hagree⟩ := exec_next_withRevTx hu (drumStep (s.withRevTx r x)).rev x
    exact ⟨_, step_of_executeTick hx' hu', congrArg endExecute hagree⟩

theorem step_fault_withRevTx {s : State} {e : Fault} (h : step s = .fault e) (r : Nat) (x : List Word) :
    step (s.withRevTx r x) = .fault e := by
  refine step_fault_iff_kinds.2 ?_
  rcases step_fault_iff_kinds.1 h with ⟨hx, hl, he⟩ | ⟨hx, he⟩
  · exact .inl ⟨hx, hl, he⟩
  · exact .inr ⟨hx, exec_fault_withRevTx he _ x⟩

/-! ### The placed word (log 17) -/

/-- The cursor one slot before `w` comes to `w`. -/
theorem slotBefore_add_one_mod {n w : Nat} (hw : w < n) : ((w + n - 1) % n + 1) % n = w := by
  rw [Nat.mod_add_mod, Nat.sub_add_cancel (by omega), Nat.add_mod_right, Nat.mod_eq_of_lt hw]

theorem withFetchWord_ir (s : State) (w : Word) : (s.withFetchWord 24 w.toNat).ir = w := by
  change BitVec.ofNat 24 (w.toNat % 2 ^ 24) = w
  rw [Nat.mod_eq_of_lt w.isLt, BitVec.ofNat_toNat, BitVec.setWidth_eq]

theorem withFetchWord_cur (s : State) (w : Word) :
    (s.withFetchWord 24 w.toNat).cur =
      if (decodeFields w).isIo then s.cur else ((decodeFields w).oslot.toNat + s.cfg.nSlots - 1) % s.cfg.nSlots := by
  conv_rhs => rw [← withFetchWord_ir s w]
  rfl

theorem drumStep_withFetchWord_cur {s : State} {w : Word} (hio : (decodeFields w).isIo = false)
    (hos : (decodeFields w).oslot.toNat < s.cfg.nSlots) :
    (drumStep (s.withFetchWord 24 w.toNat)).cur = (decodeFields w).oslot.toNat := by
  rw [drumStep_cur, withFetchWord_cur, hio, if_neg Bool.false_ne_true]
  exact slotBefore_add_one_mod hos

theorem withFetchWord_executeTick {s : State} {w : Word}
    (h : (decodeFields w).isIo = true ∨ (decodeFields w).oslot.toNat < s.cfg.nSlots) :
    (s.withFetchWord 24 w.toNat).ExecuteTick := by
  refine ⟨rfl, rfl, rfl, ?_⟩
  have hfields : (s.withFetchWord 24 w.toNat).irFields = decodeFields w := congrArg decodeFields (withFetchWord_ir s w)
  rw [State.executeAligned, drumStep_irFields, hfields]
  cases hio : (decodeFields w).isIo with
  | true => rfl
  | false => exact decide_eq_true (drumStep_withFetchWord_cur hio (h.resolve_left (by simp [hio])))

/-! ### The statements -/

/-- Settles O15: after the rotation no tick moves the drum (`step_cur_rev`); with one slot every residue is 0. -/
theorem everyTickRotatesTheDrumOnce : Obligations.EveryTickRotatesTheDrumOnce := by
  refine ⟨drumStep_eq, fun s t h => ?_, fun s t h1 h => ?_⟩
  · obtain ⟨hcur, hrev⟩ := step_cur_rev h
    exact ⟨hcur, hrev.trans (drumStep_rev_eq_add s)⟩
  · obtain ⟨hcur, hrev⟩ := step_cur_rev h
    have hzero : (s.cur + 1) % s.cfg.nSlots = 0 := by rw [h1, Nat.mod_one]
    rw [drumStep_cur, hzero] at hcur
    rw [drumStep_rev_eq_add, if_pos hzero] at hrev
    exact ⟨hcur, hrev⟩

/-- Settles O16: `ticks_cur_rev_turned`, an induction on the ticks, from a zero cursor and count. -/
theorem revolutionsCountTheTicks : Obligations.RevolutionsCountTheTicks := by
  intro s k hv hcur hrev halive
  have hslots : s.cur < s.cfg.nSlots := by omega
  obtain ⟨hcur', hrev', -⟩ := ticks_cur_rev_turned hslots k halive
  rw [hcur', hrev', State.turned, hcur, hrev, Nat.zero_mul, Nat.zero_add]
  exact ⟨rfl, rfl⟩

/-- Settles O21: the tick records the fault (`tick_of_fault`), after which ticks change nothing (`ticks_of_faulted`) and
steps are refused (`step_of_faulted`). -/
theorem faultingTickChangesOnlyTheFaultStatus : Obligations.FaultingTickChangesOnlyTheFaultStatus := by
  intro s e h
  rw [tick_of_fault (step_fault_iff.1 h)]
  refine ⟨rfl, fun k => ?_⟩
  rw [ticks_of_faulted (recordFault_fault s e)]
  exact ⟨rfl, step_of_faulted (recordFault_fault s e)⟩

/-- Settles O22: a fetch cannot, and of the meanings `exec_rangeError_iff` says which. -/
theorem rangeErrorExactlyOnOverflow : Obligations.RangeErrorExactlyOnOverflow := by
  intro s x
  rw [step_fault_iff_kinds, exec_rangeError_iff, decode_fields]
  simp only [reduceCtorEq, and_false, false_or]
  rfl

/-- Settles O24: a fetch cannot, of the meanings the reserved rows (`exec_reservedEncoding_iff`), and these by their codes
(`isReserved_iff`). -/
theorem reservedEncodingOnlyUnderTheFaultPolicy : Obligations.ReservedEncodingOnlyUnderTheFaultPolicy := by
  intro s w
  rw [step_fault_iff_kinds, exec_reservedEncoding_iff, isReserved_iff (decode_wellFormed _), decode_fields]
  simp only [reduceCtorEq, and_false, false_or]
  exact and_congr_right fun _ => and_comm.trans and_assoc

/-- Settles O37: the next state by `stepOut_of_executeTick`, the fault by `step_fault_iff_kinds`. -/
theorem stepRunsTheDecodedInstruction : Obligations.StepRunsTheDecodedInstruction := by
  rintro s i hx rfl
  exact ⟨fun t ht => ⟨stepOut_of_executeTick hx ht, step_of_executeTick hx ht⟩,
    fun e he => step_fault_iff_kinds.2 (.inr ⟨hx, he⟩)⟩

/-- Settles O38: the latch by `stepOut_of_fetchTick`, the slot by `fetchTick_cur`. -/
theorem fetchLatchesTheWordUnderTheCursor : Obligations.FetchLatchesTheWordUnderTheCursor := by
  intro s hx hl
  refine ⟨stepOut_of_fetchTick hx hl, ?_⟩
  rw [fetchTick_cur hx, State.fetchSlot]
  cases s.bp <;> rfl

/-- Settles O43: `withFetchWord_executeTick` says that the coming tick executes, `step_of_executeTick` what it answers. -/
theorem placedWordRunsInTheNextStep : Obligations.PlacedWordRunsInTheNextStep := by
  intro s w _ h
  have hx := withFetchWord_executeTick h
  refine ⟨withFetchWord_ir s w, hx, fun hio => ?_, fun t ht => ?_⟩
  · exact drumStep_withFetchWord_cur hio (h.resolve_left (by simp [hio]))
  · refine step_of_executeTick hx ?_
    rwa [withFetchWord_ir]

/-- Settles O48: ACC, TX and the drum change in an execute only (`exec_ne_of_step_ne`), and which meaning writes each is said
by `writesAcc_of_exec_acc_ne`, `outTransmit_of_exec_tx_ne` and `store_of_exec_drum_ne`. -/
theorem eachElementHasItsWriters : Obligations.EachElementHasItsWriters := by
  intro s t h
  refine ⟨fun hne => ?_, fetchTick_of_step_ir_ne h, step_await_ne h, fun hne => ?_, fun hne => ?_, step_fault_cfg h⟩
  · obtain ⟨hx, u, hu, hne', -⟩ := exec_ne_of_step_ne drumStep_acc latch_acc endExecute_acc h hne
    exact ⟨hx, writesAcc_of_exec_acc_ne hu hne'⟩
  · obtain ⟨hx, u, hu, hne', rfl⟩ := exec_ne_of_step_ne drumStep_tx latch_tx endExecute_tx h hne
    have htx := outTransmit_of_exec_tx_ne hu hne'
    exact ⟨hx, htx⟩
  · obtain ⟨hx, u, hu, hne', -⟩ := exec_ne_of_step_ne drumStep_drum latch_drum endExecute_drum h hne
    exact ⟨hx, store_of_exec_drum_ne hu hne'⟩

/-- Settles O49, by the kind of tick: `step_bp_of_fetchTick`, `step_bp_of_executeTick` and `step_bp_unchanged`. -/
theorem branchPendingIsSetOnlyByBeq : Obligations.BranchPendingIsSetOnlyByBeq := by
  refine ⟨fun s t h => ⟨step_bp_of_fetchTick h, fun hx hop hacc => ?_, step_bp_unchanged h⟩, create_bp⟩
  rw [step_bp_of_executeTick h hx, decide_eq_true ⟨hop, hacc⟩, Bool.or_true]

/-- Settles O51, by `step_next_withRevTx` and `step_fault_withRevTx`. -/
theorem noStepReadsRevOrTx : Obligations.NoStepReadsRevOrTx :=
  fun _ r x => ⟨fun _ h => step_next_withRevTx h r x, fun _ h => step_fault_withRevTx h r x⟩

/-- Settles O56: the latch (`fetchTick_of_step_ir_ne`) and the parameters (`step_fault_cfg`) stay, and branch pending is
whether ACC is zero (`step_bp_of_executeTick`). -/
theorem beqChoosesBetweenAdjacentCells : Obligations.BeqChoosesBetweenAdjacentCells := by
  intro s t hx hop hbp h
  have hir : t.ir = s.ir := by
    by_contra hne
    exact not_executeTick_of_fetchTick (fetchTick_of_step_ir_ne h hne) hx
  have hbp' : t.bp = decide (s.acc = 0) := by
    rw [step_bp_of_executeTick h hx, hbp, Bool.false_or]
    simp [hop]
  have hpc : t.pc = (s.irFields.nline.toNat, (s.irFields.nslot.toNat + (decide (s.acc = 0)).toNat) % s.cfg.nSlots) := by
    rw [State.pc, State.fetchLine, State.fetchSlot, hbp', (step_fault_cfg h).2, State.irFields, hir]
    rfl
  refine ⟨fun hacc => ?_, fun hacc => ?_⟩
  · rw [hpc, decide_eq_true hacc, Bool.toNat_true]
  · rw [hpc, decide_eq_false hacc, Bool.toNat_false, Nat.add_zero]

end Sys2Proof.Machine
end

section
/-! PROOF. Timing (20_memory.md R71, 41_engine_cycle.md R138): a waiting machine only turns until its slot comes round, which
the cursor reaches after `ticksUntil` rotations and not before. -/

namespace Sys2Proof.Machine

/-! ### The cursor of a turned drum -/

theorem turned_cur (s : State) (j : Nat) : (s.turned j).cur = (s.cur + j) % s.cfg.nSlots := by
  unfold State.turned
  rw [Nat.add_assoc, Nat.mul_comm, Nat.mul_add_mod]

theorem turned_cur_lt {s : State} (hcur : s.cur < s.cfg.nSlots) (j : Nat) : (s.turned j).cur < s.cfg.nSlots := by
  rw [turned_cur]
  exact Nat.mod_lt _ (Nat.zero_lt_of_lt hcur)

theorem ticksUntil_pos (s : State) (w : Nat) : 1 ≤ s.ticksUntil w := Nat.succ_pos _

theorem ticksUntil_sub_one_lt (s : State) (w : Nat) : s.ticksUntil w - 1 < s.ticksUntil w := Nat.lt_succ_self _

theorem ticksUntil_sub_one_add_one (s : State) (w : Nat) : s.ticksUntil w - 1 + 1 = s.ticksUntil w := rfl

section
variable {s : State} {w : Nat} (hcur : s.cur < s.cfg.nSlots) (hw : w < s.cfg.nSlots)
include hcur hw

/-- The wait without its modulus: the slot is ahead on this turn or comes on the next. -/
theorem ticksUntil_eq : s.ticksUntil w = if s.cur < w then w - s.cur else w + s.cfg.nSlots - s.cur := by
  unfold State.ticksUntil
  split
  · rw [Int.emod_eq_of_lt (by omega) (by omega)]
    omega
  · rw [← Int.add_emod_right, Int.emod_eq_of_lt (by omega) (by omega)]
    omega

theorem ticksUntil_le : s.ticksUntil w ≤ s.cfg.nSlots := by
  rw [ticksUntil_eq hcur hw]
  split <;> omega

/-- Within one turn the cursor stands on a slot when its wait is over and not before. -/
theorem turned_cur_eq_iff {j : Nat} (hpos : 1 ≤ j) (hj : j ≤ s.ticksUntil w) :
    (s.turned j).cur = w ↔ j = s.ticksUntil w := by
  have hle := ticksUntil_le hcur hw
  have hmod : (s.cur + j) % s.cfg.nSlots = if s.cur + j < s.cfg.nSlots then s.cur + j else s.cur + j - s.cfg.nSlots := by
    split
    · next h => exact Nat.mod_eq_of_lt h
    · next h => rw [Nat.mod_eq_sub_mod (by omega), Nat.mod_eq_of_lt (by omega)]
  have hwait := ticksUntil_eq hcur hw
  rw [turned_cur, hmod]
  split at hwait <;> split <;> omega

theorem turned_ticksUntil_cur : (s.turned (s.ticksUntil w)).cur = w :=
  (turned_cur_eq_iff hcur hw (ticksUntil_pos s w) le_rfl).2 rfl

theorem turned_cur_ne {j : Nat} (hj : j + 1 < s.ticksUntil w) : (s.turned (j + 1)).cur ≠ w :=
  fun h => hj.ne ((turned_cur_eq_iff hcur hw (Nat.succ_pos j) hj.le).1 h)

end

/-! ### Waiting -/

/-- The ALU class waits for its operand slot as it stands (D19). -/
theorem turned_idleTick_of_slot_ne {s : State} (hf : s.Alive) (hh : s.halt = false) (ha : s.await = true)
    (hio : s.irFields.isIo = false) {j : Nat} (hne : (s.turned (j + 1)).cur ≠ s.irFields.oslot.toNat) : (s.turned j).IdleTick := by
  refine ⟨hf, hh, .inr ⟨ha, ?_⟩⟩
  have hio' : (s.turned (j + 1)).irFields.isIo = false := hio
  rw [drumStep_turned, State.executeAligned, hio', if_neg Bool.false_ne_true]
  exact decide_eq_false hne

section
variable {s : State} (hcur : s.cur < s.cfg.nSlots) (hf : s.Alive) (hh : s.halt = false)
include hcur

/-- The fetch slot is reduced to the geometry (D19). -/
theorem fetchSlot_lt : s.fetchSlot < s.cfg.nSlots := Nat.mod_lt _ (Nat.zero_lt_of_lt hcur)

include hf hh

theorem turned_idleTick_of_fetching (ha : s.await = false) {j : Nat} (hj : j + 1 < s.ticksUntil s.fetchSlot) :
    (s.turned j).IdleTick := by
  refine ⟨hf, hh, .inl ⟨ha, ?_⟩⟩
  rw [drumStep_turned]
  exact decide_eq_false (turned_cur_ne hcur (fetchSlot_lt hcur) hj)

theorem ticks_eq_turned_of_fetching (ha : s.await = false) {j : Nat} (hj : j < s.ticksUntil s.fetchSlot) :
    ticks j s = s.turned j :=
  ticks_eq_turned_of_idle hcur j fun i hi => turned_idleTick_of_fetching hcur hf hh ha (by omega)

theorem turned_fetchTick (ha : s.await = false) : (s.turned (s.ticksUntil s.fetchSlot - 1)).FetchTick := by
  refine ⟨hf, hh, ha, ?_⟩
  rw [drumStep_turned, ticksUntil_sub_one_add_one]
  exact decide_eq_true (turned_ticksUntil_cur hcur (fetchSlot_lt hcur))

theorem ticks_latch (ha : s.await = false) (hl : s.fetchLine < s.cfg.nLines) :
    ticks (s.ticksUntil s.fetchSlot) s =
      latch (s.turned (s.ticksUntil s.fetchSlot)) (s.cell s.fetchLine s.fetchSlot) := by
  have hx := turned_fetchTick hcur hf hh ha
  have hwait := ticks_eq_turned_of_fetching hcur hf hh ha (ticksUntil_sub_one_lt s s.fetchSlot)
  calc ticks (s.ticksUntil s.fetchSlot) s
      = tick (ticks (s.ticksUntil s.fetchSlot - 1) s) := ticks_succ_last _ _
    _ = tick (s.turned (s.ticksUntil s.fetchSlot - 1)) := by rw [hwait]
    _ = latch (drumStep (s.turned (s.ticksUntil s.fetchSlot - 1)))
          (s.cell s.fetchLine (drumStep (s.turned (s.ticksUntil s.fetchSlot - 1))).cur) :=
        tick_of_next (stepOut_of_fetchTick hx hl)
    _ = latch (s.turned (s.ticksUntil s.fetchSlot)) (s.cell s.fetchLine s.fetchSlot) := by
        rw [drumStep_turned, ticksUntil_sub_one_add_one, turned_ticksUntil_cur hcur (fetchSlot_lt hcur)]

section
variable (ha : s.await = true) (hio : s.irFields.isIo = false) (hos : s.irFields.oslot.toNat < s.cfg.nSlots)
include ha hio hos

theorem turned_idleTick_of_executing {j : Nat} (hj : j + 1 < s.ticksUntil s.irFields.oslot.toNat) :
    (s.turned j).IdleTick :=
  turned_idleTick_of_slot_ne hf hh ha hio (turned_cur_ne hcur hos hj)

theorem ticks_eq_turned_of_executing {j : Nat} (hj : j < s.ticksUntil s.irFields.oslot.toNat) : ticks j s = s.turned j :=
  ticks_eq_turned_of_idle hcur j fun i hi => turned_idleTick_of_executing hcur hf hh ha hio hos (by omega)

theorem turned_executeTick : (s.turned (s.ticksUntil s.irFields.oslot.toNat - 1)).ExecuteTick := by
  refine ⟨hf, hh, ha, ?_⟩
  have hio' : (s.turned (s.ticksUntil s.irFields.oslot.toNat)).irFields.isIo = false := hio
  rw [drumStep_turned, ticksUntil_sub_one_add_one, State.executeAligned, hio', if_neg Bool.false_ne_true]
  exact decide_eq_true (turned_ticksUntil_cur hcur hos)

end

end

theorem executeTick_of_isIo {s : State} (hf : s.Alive) (hh : s.halt = false) (ha : s.await = true)
    (hio : s.irFields.isIo = true) : s.ExecuteTick := by
  refine ⟨hf, hh, ha, ?_⟩
  rw [State.executeAligned, drumStep_irFields, hio, if_pos rfl]

/-- An execute tick ends the cycle, one way or the other: no meaning refuses. -/
theorem stepOut_ends_of_executeTick {s : State} (hx : s.ExecuteTick) :
    (∃ t, stepOut s = .next ⟨t, true⟩) ∨ ∃ e, stepOut s = .fault e := by
  cases he : exec (decode s.ir) (drumStep s) with
  | next t => exact .inl ⟨_, stepOut_of_executeTick hx he⟩
  | fault e => exact .inr ⟨e, step_fault_iff.1 (step_fault_iff_kinds.2 (.inr ⟨hx, he⟩))⟩
  | refused r => exact absurd he (exec_not_refused _ _ r)

/-- A latched instruction that can align executes within one revolution. -/
theorem exists_executeTick {s : State} (hcur : s.cur < s.cfg.nSlots) (hf : s.Alive) (hh : s.halt = false)
    (ha : s.await = true) (h : s.irFields.isIo = true ∨ s.irFields.oslot.toNat < s.cfg.nSlots) :
    ∃ k, k < s.cfg.nSlots ∧ (ticks k s).ExecuteTick := by
  cases hio : s.irFields.isIo with
  | true => exact ⟨0, Nat.zero_lt_of_lt hcur, executeTick_of_isIo hf hh ha hio⟩
  | false =>
    have hos := h.resolve_left (by simp [hio])
    have hlt := ticksUntil_sub_one_lt s s.irFields.oslot.toNat
    refine ⟨s.ticksUntil s.irFields.oslot.toNat - 1, hlt.trans_le (ticksUntil_le hcur hos), ?_⟩
    rw [ticks_eq_turned_of_executing hcur hf hh ha hio hos hlt]
    exact turned_executeTick hcur hf hh ha hio hos

/-! ### The fresh machine -/

section
variable (c : Config) (m : Memory)

/-- A machine as created, with any drum. -/
def State.fresh : State := { State.create c with drum := m }

theorem fresh_pc : (State.fresh c m).fetchLine = 0 ∧ (State.fresh c m).fetchSlot = 0 :=
  Prod.ext_iff.1 (create_pc c)

theorem fresh_turned (k : Nat) :
    (State.fresh c m).turned k = { State.fresh c m with cur := k % c.nSlots, rev := k / c.nSlots } := by
  simp [State.turned, State.fresh]

theorem fresh_ticksUntil (hc : c.Valid) : (State.fresh c m).ticksUntil 0 = c.nSlots := by
  have hpos : 0 < (State.fresh c m).cfg.nSlots := hc.2.2.1
  rw [ticksUntil_eq (s := State.fresh c m) hpos hpos, if_neg (Nat.not_lt_zero _), Nat.zero_add]
  rfl

end

/-! ### The statements -/

/-- Settles O52: the wait is `ticksUntil` of the fetch slot, its ticks are idle (`ticks_eq_turned_of_fetching`), and the tick
at its end latches (`ticks_latch`). -/
theorem fetchHappensExactlyWhenItsSlotComesRound : Obligations.FetchHappensExactlyWhenItsSlotComesRound :=
  fun _ _ hcur hf hh ha hl =>
    ⟨ticksUntil_pos _ _, ticksUntil_le hcur (fetchSlot_lt hcur),
      fun _ => ticks_eq_turned_of_fetching hcur hf hh ha, ticks_latch hcur hf hh ha hl,
      turned_ticksUntil_cur hcur (fetchSlot_lt hcur)⟩

/-- Settles O53: the I/O class by `executeTick_of_isIo`; for the ALU class the wait is `ticksUntil` of the operand slot, idle
before its end and an execute at it. -/
theorem executeHappensExactlyWhenItsSlotComesRound : Obligations.ExecuteHappensExactlyWhenItsSlotComesRound := by
  intro s _ hcur hf hh ha
  refine ⟨executeTick_of_isIo hf hh ha, fun hio hos => ⟨fun j => ticks_eq_turned_of_executing hcur hf hh ha hio hos,
    fun j => turned_idleTick_of_executing hcur hf hh ha hio hos, turned_executeTick hcur hf hh ha hio hos, ?_⟩⟩
  rw [drumStep_turned, ticksUntil_sub_one_add_one]
  exact turned_ticksUntil_cur hcur hos

/-- Settles O54: the fetch comes within one revolution (`ticks_latch`), or is of a missing line and faults; the execute
comes within one more (`exists_executeTick`). -/
theorem cycleEndsWithinTwoRevolutions : Obligations.CycleEndsWithinTwoRevolutions := by
  intro s _ hcur hf hh ha halign
  have hle := ticksUntil_le hcur (fetchSlot_lt hcur)
  rcases Nat.lt_or_ge s.fetchLine s.cfg.nLines with hl | hl
  · have hlatch := ticks_latch hcur hf hh ha hl
    have hcur' := turned_cur_lt hcur (s.ticksUntil s.fetchSlot)
    obtain ⟨k, hk, hx⟩ := exists_executeTick (s := latch (s.turned (s.ticksUntil s.fetchSlot))
      (s.cell s.fetchLine s.fetchSlot)) hcur' hf hh rfl halign
    have hk' : k < s.cfg.nSlots := hk
    refine ⟨s.ticksUntil s.fetchSlot + k, by omega, ?_⟩
    rw [ticks_add, hlatch]
    exact stepOut_ends_of_executeTick hx
  · refine ⟨s.ticksUntil s.fetchSlot - 1, by omega, .inr ?_⟩
    rw [ticks_eq_turned_of_fetching hcur hf hh ha (ticksUntil_sub_one_lt s s.fetchSlot)]
    have hx := turned_fetchTick hcur hf hh ha
    exact ⟨_, step_fault_iff.1 (step_fault_iff_kinds.2 (.inl ⟨hx, hl, rfl⟩))⟩

/-- Settles O55: O52's wait (`ticks_eq_turned_of_fetching`, `ticks_latch`) from cursor 0 to slot 0 is one whole turn. -/
theorem firstFetchIsFromZeroAtTickNSlots : Obligations.FirstFetchIsFromZeroAtTickNSlots := by
  intro c m hc
  change (∀ k, k < c.nSlots → ticks k (State.fresh c m) = _) ∧ ticks c.nSlots (State.fresh c m) = _
  obtain ⟨hline, hslot⟩ := fresh_pc c m
  have hcur : (State.fresh c m).cur < (State.fresh c m).cfg.nSlots := hc.2.2.1
  have hwait : (State.fresh c m).ticksUntil (State.fresh c m).fetchSlot = c.nSlots := by
    rw [hslot, fresh_ticksUntil c m hc]
  refine ⟨fun k hk => ?_, ?_⟩
  · rw [ticks_eq_turned_of_fetching hcur rfl rfl rfl (hwait.symm ▸ hk), fresh_turned, Nat.mod_eq_of_lt hk,
      Nat.div_eq_of_lt hk]
    rfl
  · have hl : (State.fresh c m).fetchLine < (State.fresh c m).cfg.nLines := hline.symm ▸ hc.1
    have hlatch := ticks_latch hcur rfl rfl rfl hl
    rw [hwait, hline, hslot, fresh_turned, Nat.mod_self, Nat.div_self (Nat.zero_lt_of_lt hc.2.2.1)] at hlatch
    exact hlatch

/-- Settles O58: the cursor stays inside the geometry (`turned_cur_lt`) and so never comes to the operand slot. -/
theorem missingOperandSlotHangs : Obligations.MissingOperandSlotHangs := by
  intro s k hcur hf hh ha hio hos
  have hidle : ∀ j, (s.turned j).IdleTick := fun j =>
    turned_idleTick_of_slot_ne hf hh ha hio ((turned_cur_lt hcur (j + 1)).trans_le hos).ne
  have hturned := ticks_eq_turned_of_idle hcur k fun j _ => hidle j
  exact ⟨hturned, hturned ▸ hidle k⟩

end Sys2Proof.Machine
end
